-- ==== Sys2Proof/Word.lean ====
section
/-! DEFINITION. The word types of the block: widths of 00_scope.md R6 and the encodings of
30_encoding.md. Everything the spec numbers as bits is a bit vector; a timestamp is opaque data. -/

namespace Sys2Proof

/-- A data byte or a register value (00_scope.md R6, BYTE_W = 8). -/
abbrev Byte := BitVec 8

/-- A chip address on the bus (00_scope.md R6, ADDR_W = 7). -/
abbrev ChipAddr := BitVec 7

/-- A 12-bit input event word, EVW (30_encoding.md R70). -/
abbrev EventWord := BitVec 12

/-- A 32-bit output word, HW or FW (30_encoding.md R79, R80). -/
abbrev OutputWord := BitVec 32

/-- A timestamp, as a natural number. Which numbers are of TIME, the OPEN parameter of 00_scope.md R8 and
30_encoding.md R76, the machine's parameter `Params.timeWidth` says (DESIGN CHOICE, log 2). -/
abbrev Time := Nat

end Sys2Proof
end

