-- ==== Sys2Proof/Config.lean ====
section
/-! DEFINITION. What is fixed for one machine: the fixed parameters of 00_scope.md R6, the name types
the parameters range over (R13), the record of model parameters (R8), and the two free values. The
default VALUES of the parameters stand in Machine/RegisterMap.lean. -/

namespace Sys2Proof

/-- The eleven register kinds, in the source's order (41_register_decoder.md R140). -/
inductive RegKind where
  | iodir | ipol | gpinten | defval | intcon | iocon | gppu | intf | intcap | gpio | olat
  deriving DecidableEq, Repr

/-- The two 8-bit sub-ports (41_register_decoder.md R140). -/
inductive Port where
  | a | b
  deriving DecidableEq, Repr

/-- One of the 22 register identifiers, a kind and a port (41_register_decoder.md R140). -/
structure RegId where
  kind : RegKind
  port : Port
  deriving DecidableEq, Repr

/-- The seven named control bits of the configuration register (41_register_decoder.md R147). -/
inductive IoconBit where
  | bank | mirror | seqop | disslw | haen | odr | intpol
  deriving DecidableEq, Repr

/-- What an ADDRESS event in IN_TXN does, ADDR_IN_TXN_POLICY (00_scope.md R8, 40_reassembler.md R104). -/
inductive AddrInTxnPolicy where
  | rephase | ignore
  deriving DecidableEq, Repr

/-- REG_MAP: one partial map from 8-bit offsets to identifiers for each bank mode, as a list of
(offset, identifier) pairs; an offset that is not listed is absent (41_register_decoder.md R142). -/
structure RegMap where
  bank0 : List (Byte × RegId)
  bank1 : List (Byte × RegId)
  deriving DecidableEq, Repr

/-- IOCON_LAYOUT: the bit position of each named bit (41_register_decoder.md R148). -/
structure Layout where
  bank : BitVec 3
  mirror : BitVec 3
  seqop : BitVec 3
  disslw : BitVec 3
  haen : BitVec 3
  odr : BitVec 3
  intpol : BitVec 3
  deriving DecidableEq, Repr

/-- The model parameters of 00_scope.md R8, fixed for a machine (10_state.md R32): no step writes one
(log 1). `timeWidth` is TIME_W: `some n` makes TIME the numbers below 2^n, ordered as numbers, and `none`
all the naturals (log 2). `maxPayload = none` is the reference value ∞. -/
structure Params where
  timeWidth : Option Nat
  maxPayload : Option Nat
  addrInTxn : AddrInTxnPolicy
  regMap : RegMap
  layout : Layout
  emitOrder : List IoconBit
  deriving DecidableEq, Repr

namespace Config

/-- WIN_BASE (00_scope.md R6). -/
def winBase : Nat := 0x20

/-- WIN_SIZE (00_scope.md R6). -/
def winSize : Nat := 8

/-- BANK_BIT, the position of the bank-select bit in a configuration-register value (00_scope.md R6). -/
def bankBit : Nat := 7

/-- FREE VALUE (log 13): what the 16-bit OFFSET field of an UNREC word holds for an offset above
0xFFFF, which 20_memory.md R52 keeps out of the FW encoding only by a bound on MAX_PAYLOAD. -/
opaque freeOffset : Nat → BitVec 16

/-- FREE VALUE (log 13): what the 16-bit FIELD_COUNT of a header holds for a count above 0xFFFF. -/
opaque freeFieldCount : Nat → BitVec 16

end Config

end Sys2Proof
end

