-- ==== Sys2Proof/Machine/Operands.lean ====
section
/-! DEFINITION. The operand forms: the watched window and the bank index of a chip address, the lookup of
a register offset, the tests on a resolved identifier and the bits of an IOCON value. -/

namespace Sys2Proof.Machine

/-- `InWindow(a)`: the chip address is one of the eight watched (40_reassembler.md R102). -/
def inWindow (a : ChipAddr) : Bool :=
  decide (Config.winBase ≤ a.toNat) && decide (a.toNat < Config.winBase + Config.winSize)

/-- `Accept(ack, a)` (40_reassembler.md R102). -/
def accept (ack : Bool) (a : ChipAddr) : Bool := ack && inWindow a

/-- `idx(a) = a - 0x20`, for addresses inside the window only (10_state.md R29). -/
def bankIndex (a : ChipAddr) : Option (Fin 8) :=
  if inWindow a then some (Fin.ofNat 8 (a.toNat - Config.winBase)) else none

/-- The number is a timestamp of TIME: it fits the side band of TIME_W bits (30_encoding.md R76; log 2). -/
def timeFits (timeWidth : Option Nat) (t : Nat) : Bool :=
  match timeWidth with
  | none => true
  | some n => decide (t < 2 ^ n)

/-- One partial map of REG_MAP, as a function of the 8-bit offset (41_register_decoder.md R142). -/
def mapTable (m : RegMap) (bank : Bool) : List (Byte × RegId) :=
  if bank then m.bank1 else m.bank0

/-- `Map(b, off)`: the identifier the active map gives the offset, none if the map lacks it or the
offset is above 0xFF (41_register_decoder.md R145). -/
def mapLookup (m : RegMap) (bank : Bool) (off : Nat) : Option RegId :=
  if off ≤ 0xFF then (mapTable m bank).lookup (BitVec.ofNat 8 off) else none

/-- `IsConfig(id)` (41_register_decoder.md R146). -/
def isConfig (id : RegId) : Bool := decide (id.kind = .iocon)

/-- `BankSel(v) = v[7]` (41_register_decoder.md R149). -/
def bankSel (v : Byte) : Bool := v.getLsbD Config.bankBit

/-- The position IOCON_LAYOUT gives a named bit (41_register_decoder.md R148). -/
def bitPos (l : Layout) : IoconBit → BitVec 3
  | .bank => l.bank
  | .mirror => l.mirror
  | .seqop => l.seqop
  | .disslw => l.disslw
  | .haen => l.haen
  | .odr => l.odr
  | .intpol => l.intpol

/-- `v[IOCON_LAYOUT(nm)] = 1` (41_register_decoder.md R155). -/
def namedBit (l : Layout) (nm : IoconBit) (v : Byte) : Bool := v.getLsbD (bitPos l nm).toNat

/-- `off = bytes[0] + (k - 1)` on the naturals, without wrap (41_register_decoder.md R152): the offset
after `off`. -/
def nextOffset (off : Nat) : Nat := off + 1

end Sys2Proof.Machine
end

