-- ==== Sys2Proof/Machine/Flags.lean ====
section
/-! DEFINITION. The block's two status bits (10_state.md R36): the direction accumulator and the
truncation flag. There are no condition codes. -/

namespace Sys2Proof.Machine

/-- `R.rd OR read`: the direction accumulator after an accepted ADDRESS (10_state.md R25,
40_reassembler.md R104). -/
def accumulateDirection (rd read : Bool) : Bool := rd || read

/-- The buffer has no room for one more byte, so that a DATA event sets the truncation flag: MAX_PAYLOAD
is finite and `len(R.buf) < MAX_PAYLOAD` fails (40_reassembler.md R105, 20_memory.md R52). -/
def bufFull (maxPayload : Option Nat) (buf : List Byte) : Bool :=
  match maxPayload with
  | none => false
  | some n => decide (n ≤ buf.length)

end Sys2Proof.Machine
end

