-- ==== Sys2Proof/Syntax.lean ====
section
/-! DEFINITION. The operations of the block, one constructor per row of spec/opcode_table.json, and the
encoded words they are read from. -/

namespace Sys2Proof

/-- The operations: the four input events with the operands of 00_scope.md R13 (the timestamps are
operand words beside the EVW, 30_encoding.md R76), RESET, and the four forms of output word. -/
inductive Instr where
  /-- START (40_reassembler.md R103). -/
  | start (ts te : Time)
  /-- ADDRESS (40_reassembler.md R104). -/
  | address (read : Bool) (addr : ChipAddr) (ack : Bool) (ts te : Time)
  /-- DATA (40_reassembler.md R105). -/
  | data (byte : Byte) (ts te : Time)
  /-- STOP (40_reassembler.md R106). -/
  | stop (ts te : Time)
  /-- RESET, the construction of the block (70_reset_and_hazards.md R230). -/
  | reset (ib vb : Bool)
  /-- The header word HW of a record and its two timestamps (30_encoding.md R79). -/
  | recordHeader (count : BitVec 16) (isRead trunc : Bool) (chip : ChipAddr) (startTime endTime : Time)
  /-- A field word of KIND REG (30_encoding.md R81). -/
  | fieldReg (id : RegId) (value : Byte)
  /-- A field word of KIND UNREC (30_encoding.md R82). -/
  | fieldUnrec (offset : BitVec 16) (value : Byte)
  /-- A field word of KIND BIT (30_encoding.md R83). -/
  | fieldBit (name : IoconBit) (pos : BitVec 3) (val : Bool)
  deriving DecidableEq, Repr

/-- An encoded word in the format of its opcode-table row: an event word with TS and TE beside it
(R70, R76), the RESET input, which is no event word (R87), a header word with the record's two
timestamps beside it (R79), or a field word (R80). An output word's own bits do not say whether it is
HW or FW: its place in the record does (R85). -/
inductive PortWord where
  | evw (w : EventWord) (ts te : Time)
  | reset (ib vb : Bool)
  | hw (w : OutputWord) (startTime endTime : Time)
  | fw (w : OutputWord)
  deriving DecidableEq, Repr

end Sys2Proof
end

