-- ==== Sys2Proof/WellFormed.lean ====
section
/-! DEFINITION. Which operations have an encoding. The operand types bound every width; what is left to
check is the one range inside a field. -/

namespace Sys2Proof

/-- POS lies in 1 to 7 (30_encoding.md R83, R84). Every event, every RESET and every header, REG or UNREC
word is well formed: its operand types are its fields. -/
def Instr.wellFormed : Instr → Bool
  | .start _ _ => true
  | .address _ _ _ _ _ => true
  | .data _ _ _ => true
  | .stop _ _ => true
  | .reset _ _ => true
  | .recordHeader _ _ _ _ _ _ => true
  | .fieldReg _ _ => true
  | .fieldUnrec _ _ => true
  | .fieldBit _ pos _ => pos != 0

end Sys2Proof
end

