-- ==== Sys2Proof/Decode.lean ====
section
/-! DEFINITION. The encodings of 30_encoding.md and the codes of 41_register_decoder.md R140, R147: the
decoder, total on every word and refusing a reserved output word by name, the encoder after it, and the
host's numbered form of a word. -/

namespace Sys2Proof

/-- Why an output word stands for no operation (30_encoding.md R84; 93_implementation_defined.md U3).
No event word is ever refused (R77). -/
inductive DecodeError where
  /-- Bits 13:7 of a header are not 0 (R79). -/
  | headerReservedBits
  /-- KIND is 11 (R80). -/
  | fieldKindReserved
  /-- A bit the layout of the word's KIND fixes at 0 is 1 (R81 to R83). -/
  | fieldReservedBits
  /-- REG_ID is 22 to 31 (R84). -/
  | regIdReserved
  /-- NAME_ID is 7 (R84). -/
  | nameIdReserved
  /-- POS is 0 (R84). -/
  | posZero
  deriving DecidableEq, Repr

/-- A field put at bit `lo` of a word of `n` bits, every other bit 0. -/
def putField (n lo : Nat) {w : Nat} (x : BitVec w) : BitVec n := x.setWidth n <<< lo

/-- The kind codes, in the source's order (41_register_decoder.md R140). -/
def RegKind.code : RegKind → BitVec 4
  | .iodir => 0
  | .ipol => 1
  | .gpinten => 2
  | .defval => 3
  | .intcon => 4
  | .iocon => 5
  | .gppu => 6
  | .intf => 7
  | .intcap => 8
  | .gpio => 9
  | .olat => 10

/-- The kind of a code, none for 11 to 15 (41_register_decoder.md R140). -/
def RegKind.ofCode (c : BitVec 4) : Option RegKind :=
  [RegKind.iodir, .ipol, .gpinten, .defval, .intcon, .iocon, .gppu, .intf, .intcap, .gpio, .olat][c.toNat]?

/-- The port codes A = 0, B = 1 (41_register_decoder.md R140). -/
def Port.code : Port → BitVec 1
  | .a => 0
  | .b => 1

/-- The port of a code (41_register_decoder.md R140). -/
def Port.ofCode (c : BitVec 1) : Port := if c = 0 then .a else .b

/-- `REG_ID = 2·kind + port` (41_register_decoder.md R140). -/
def RegId.code (id : RegId) : BitVec 5 := putField 5 1 id.kind.code ||| putField 5 0 id.port.code

/-- The identifier of a code, none for 22 to 31 (41_register_decoder.md R140, 30_encoding.md R84). -/
def RegId.ofCode (c : BitVec 5) : Option RegId :=
  (RegKind.ofCode (c.extractLsb' 1 4)).map fun k => ⟨k, Port.ofCode (c.extractLsb' 0 1)⟩

/-- The NAME_ID codes (41_register_decoder.md R147). -/
def IoconBit.code : IoconBit → BitVec 3
  | .bank => 0
  | .mirror => 1
  | .seqop => 2
  | .disslw => 3
  | .haen => 4
  | .odr => 5
  | .intpol => 6

/-- The named bit of a code, none for 7 (41_register_decoder.md R147, 30_encoding.md R84). -/
def IoconBit.ofCode (c : BitVec 3) : Option IoconBit :=
  [IoconBit.bank, .mirror, .seqop, .disslw, .haen, .odr, .intpol][c.toNat]?

/-- The event of an event word (30_encoding.md R71 to R75). Total: reserved bits are not read (R77). -/
def decodeEvent (w : EventWord) (ts te : Time) : Instr :=
  if w.extractLsb' 10 2 = 0b00#2 then .start ts te
  else if w.extractLsb' 10 2 = 0b01#2 then
    .address (w.getLsbD 9) (w.extractLsb' 0 7) (w.getLsbD 8) ts te
  else if w.extractLsb' 10 2 = 0b10#2 then .data (w.extractLsb' 0 8) ts te
  else .stop ts te

/-- The header of a header word (30_encoding.md R79). A CHIP outside the window, which no emitted header
has, is no reserved code of R84 and is read as it stands (DEDUCED, log 18). -/
def decodeHeader (w : OutputWord) (startTime endTime : Time) : Except DecodeError Instr :=
  if w.extractLsb' 7 7 ≠ 0 then .error .headerReservedBits
  else
    .ok (.recordHeader (w.extractLsb' 16 16) (w.getLsbD 15) (w.getLsbD 14) (w.extractLsb' 0 7)
      startTime endTime)

/-- A word of KIND REG (30_encoding.md R81). -/
def decodeFieldReg (w : OutputWord) : Except DecodeError Instr :=
  if w.extractLsb' 21 9 ≠ 0 ∨ w.extractLsb' 8 8 ≠ 0 then .error .fieldReservedBits
  else match RegId.ofCode (w.extractLsb' 16 5) with
    | some id => .ok (.fieldReg id (w.extractLsb' 0 8))
    | none => .error .regIdReserved

/-- A word of KIND UNREC (30_encoding.md R82). -/
def decodeFieldUnrec (w : OutputWord) : Except DecodeError Instr :=
  if w.extractLsb' 24 6 ≠ 0 then .error .fieldReservedBits
  else .ok (.fieldUnrec (w.extractLsb' 8 16) (w.extractLsb' 0 8))

/-- A word of KIND BIT (30_encoding.md R83). -/
def decodeFieldBit (w : OutputWord) : Except DecodeError Instr :=
  if w.extractLsb' 15 15 ≠ 0 ∨ w.extractLsb' 11 1 ≠ 0 ∨ w.extractLsb' 1 7 ≠ 0 then
    .error .fieldReservedBits
  else if w.extractLsb' 8 3 = 0 then .error .posZero
  else match IoconBit.ofCode (w.extractLsb' 12 3) with
    | some nm => .ok (.fieldBit nm (w.extractLsb' 8 3) (w.getLsbD 0))
    | none => .error .nameIdReserved

/-- The field of a field word, by its KIND (30_encoding.md R80). -/
def decodeField (w : OutputWord) : Except DecodeError Instr :=
  if w.extractLsb' 30 2 = 0b00#2 then decodeFieldReg w
  else if w.extractLsb' 30 2 = 0b01#2 then decodeFieldUnrec w
  else if w.extractLsb' 30 2 = 0b10#2 then decodeFieldBit w
  else .error .fieldKindReserved

/-- The operation a word stands for, in the word's own format. RESET's two operands are bits of their
own (70_reset_and_hazards.md R230) and need no decoding. -/
def decode : PortWord → Except DecodeError Instr
  | .evw w ts te => .ok (decodeEvent w ts te)
  | .reset ib vb => .ok (.reset ib vb)
  | .hw w startTime endTime => decodeHeader w startTime endTime
  | .fw w => decodeField w

/-- The bits of a header word: FIELD_COUNT 31:16, IS_READ 15, TRUNC 14, CHIP 6:0 (30_encoding.md R79). -/
def headerBits (count : BitVec 16) (isRead trunc : Bool) (chip : ChipAddr) : OutputWord :=
  putField 32 16 count ||| putField 32 15 (BitVec.ofBool isRead) |||
    putField 32 14 (BitVec.ofBool trunc) ||| putField 32 0 chip

/-- The bits of a word of KIND REG: KIND 31:30, REG_ID 20:16, VALUE 7:0 (30_encoding.md R81). -/
def fieldRegBits (id : RegId) (value : Byte) : OutputWord :=
  putField 32 30 0b00#2 ||| putField 32 16 id.code ||| putField 32 0 value

/-- The bits of a word of KIND UNREC: KIND 31:30, OFFSET 23:8, VALUE 7:0 (30_encoding.md R82). -/
def fieldUnrecBits (offset : BitVec 16) (value : Byte) : OutputWord :=
  putField 32 30 0b01#2 ||| putField 32 8 offset ||| putField 32 0 value

/-- The bits of a word of KIND BIT: KIND 31:30, NAME_ID 14:12, POS 10:8, VAL 0 (30_encoding.md R83). -/
def fieldBitBits (name : IoconBit) (pos : BitVec 3) (val : Bool) : OutputWord :=
  putField 32 30 0b10#2 ||| putField 32 12 name.code ||| putField 32 8 pos |||
    putField 32 0 (BitVec.ofBool val)

/-- The TYPE field of an event word, 11:10 (30_encoding.md R71). -/
def typeBits (t : BitVec 2) : EventWord := putField 12 10 t

/-- The bits of an ADDRESS word: R 9, K 8, ADDR 6:0 (30_encoding.md R72). -/
def addressBits (read : Bool) (addr : ChipAddr) (ack : Bool) : EventWord :=
  typeBits 0b01 ||| putField 12 9 (BitVec.ofBool read) ||| putField 12 8 (BitVec.ofBool ack) |||
    putField 12 0 addr

/-- The bits of a DATA word: BYTE 7:0 (30_encoding.md R73). -/
def dataBits (byte : Byte) : EventWord := typeBits 0b10 ||| putField 12 0 byte

/-- The word of an operation, with reserved bits 0 (30_encoding.md R72 to R74, R79 to R83). -/
def encode : Instr → PortWord
  | .start ts te => .evw (typeBits 0b00) ts te
  | .address read addr ack ts te => .evw (addressBits read addr ack) ts te
  | .data byte ts te => .evw (dataBits byte) ts te
  | .stop ts te => .evw (typeBits 0b11) ts te
  | .reset ib vb => .reset ib vb
  | .recordHeader count isRead trunc chip startTime endTime =>
    .hw (headerBits count isRead trunc chip) startTime endTime
  | .fieldReg id value => .fw (fieldRegBits id value)
  | .fieldUnrec offset value => .fw (fieldUnrecBits offset value)
  | .fieldBit name pos val => .fw (fieldBitBits name pos val)

/-- Which format a 32-bit word of the table is taken in (DESIGN CHOICE, log 11): HW and FW share words, and
only the place in the record tells them apart (30_encoding.md R85). A header of a watched chip is taken as
a header; another word as a field word if it is a legal one, else as a header if its reserved bits are 0. -/
def outputFormat (w : OutputWord) : PortWord :=
  match decodeHeader w 0 0, decodeField w with
  | .ok _, .ok _ => if Machine.inWindow (w.extractLsb' 0 7) then .hw w 0 0 else .fw w
  | .ok _, .error _ => .hw w 0 0
  | .error _, _ => .fw w

/-- The word that `nbits` table bits `w` are, timestamps 0. The row's length says the format: 12-bit
rows are event words, 32-bit rows output words, and the RESET row, which has no encoding, is taken as
ib in bit 0 and vb in bit 1 (DESIGN CHOICE, log 12). -/
def tableWord (nbits w : Nat) : Option PortWord :=
  if nbits ≤ 8 then
    if w < 4 then some (.reset (w.testBit 0) (w.testBit 1)) else none
  else if nbits ≤ 16 then
    if w < 2 ^ 12 then some (.evw (BitVec.ofNat 12 w) 0 0) else none
  else if w < 2 ^ 32 then some (outputFormat (BitVec.ofNat 32 w))
  else none

/-- What `decode` reads from the table word (the host's fixed name). -/
def decodeTableWord (nbits w : Nat) : Option Instr :=
  match tableWord nbits w with
  | none => none
  | some p =>
    match decode p with
    | .ok i => some i
    | .error _ => none

end Sys2Proof
end

