-- ==== Sys2Proof/Machine/RegisterMap.lean ====
section
/-! DEFINITION. The default values of the model parameters (00_scope.md R8) and the test that a
parameter value is one the spec allows. The two register maps and five of the seven IOCON bit names are
PRESUMED: the MCP23017 datasheet's, which the spec marks 'from general knowledge, not in source'
(logs 6, 7). -/

namespace Sys2Proof.Machine

/-- The default bank-0 map, offsets 0x00 to 0x15 (41_register_decoder.md R143). -/
def defaultBank0 : List (Byte × RegId) :=
  [ (0x00, ⟨.iodir, .a⟩), (0x01, ⟨.iodir, .b⟩), (0x02, ⟨.ipol, .a⟩), (0x03, ⟨.ipol, .b⟩),
    (0x04, ⟨.gpinten, .a⟩), (0x05, ⟨.gpinten, .b⟩), (0x06, ⟨.defval, .a⟩), (0x07, ⟨.defval, .b⟩),
    (0x08, ⟨.intcon, .a⟩), (0x09, ⟨.intcon, .b⟩), (0x0A, ⟨.iocon, .a⟩), (0x0B, ⟨.iocon, .b⟩),
    (0x0C, ⟨.gppu, .a⟩), (0x0D, ⟨.gppu, .b⟩), (0x0E, ⟨.intf, .a⟩), (0x0F, ⟨.intf, .b⟩),
    (0x10, ⟨.intcap, .a⟩), (0x11, ⟨.intcap, .b⟩), (0x12, ⟨.gpio, .a⟩), (0x13, ⟨.gpio, .b⟩),
    (0x14, ⟨.olat, .a⟩), (0x15, ⟨.olat, .b⟩) ]

/-- The default bank-1 map, offsets 0x00 to 0x0A and 0x10 to 0x1A (41_register_decoder.md R144). -/
def defaultBank1 : List (Byte × RegId) :=
  [ (0x00, ⟨.iodir, .a⟩), (0x01, ⟨.ipol, .a⟩), (0x02, ⟨.gpinten, .a⟩), (0x03, ⟨.defval, .a⟩),
    (0x04, ⟨.intcon, .a⟩), (0x05, ⟨.iocon, .a⟩), (0x06, ⟨.gppu, .a⟩), (0x07, ⟨.intf, .a⟩),
    (0x08, ⟨.intcap, .a⟩), (0x09, ⟨.gpio, .a⟩), (0x0A, ⟨.olat, .a⟩),
    (0x10, ⟨.iodir, .b⟩), (0x11, ⟨.ipol, .b⟩), (0x12, ⟨.gpinten, .b⟩), (0x13, ⟨.defval, .b⟩),
    (0x14, ⟨.intcon, .b⟩), (0x15, ⟨.iocon, .b⟩), (0x16, ⟨.gppu, .b⟩), (0x17, ⟨.intf, .b⟩),
    (0x18, ⟨.intcap, .b⟩), (0x19, ⟨.gpio, .b⟩), (0x1A, ⟨.olat, .b⟩) ]

/-- The default of REG_MAP (92_eei_decisions.md D9). -/
def defaultRegMap : RegMap := { bank0 := defaultBank0, bank1 := defaultBank1 }

/-- `L_DOC`, the default of IOCON_LAYOUT (41_register_decoder.md R148, 90_conflicts.md C1). -/
def layoutDoc : Layout :=
  { bank := 7, mirror := 6, seqop := 5, disslw := 4, odr := 3, haen := 2, intpol := 1 }

/-- `L_DATASHEET`, the named alternative (41_register_decoder.md R148). -/
def layoutDatasheet : Layout :=
  { bank := 7, mirror := 6, seqop := 5, disslw := 4, haen := 3, odr := 2, intpol := 1 }

/-- The seven named bits, in the order of their NAME_ID codes (41_register_decoder.md R147). -/
def allIoconBits : List IoconBit := [.bank, .mirror, .seqop, .disslw, .haen, .odr, .intpol]

/-- The named bits in descending bit position under a layout, the default of IOCON_EMIT_ORDER
(41_register_decoder.md R155, 92_eei_decisions.md D12). -/
def descendingOrder (l : Layout) : List IoconBit :=
  [7, 6, 5, 4, 3, 2, 1].flatMap fun p => allIoconBits.filter fun nm => bitPos l nm == p

/-- Every model parameter at the default 00_scope.md R8 gives it; TIME, which R8 leaves OPEN, unbounded
(DESIGN CHOICE, log 2). -/
def defaultParams : Params :=
  { timeWidth := none
    maxPayload := none
    addrInTxn := .rephase
    regMap := defaultRegMap
    layout := layoutDoc
    emitOrder := descendingOrder layoutDoc }

/-- The two entries the source fixes (41_register_decoder.md R142). -/
def regMapAdmissible (m : RegMap) : Bool :=
  ((mapLookup m false 0x0A).any isConfig) && (mapLookup m true 0x09 == some ⟨.gpio, .a⟩)

/-- A bijection from the seven names to the positions 1 to 7 with BANK at 7 (41_register_decoder.md
R148). -/
def layoutAdmissible (l : Layout) : Bool :=
  (l.bank == 7) && [1, 2, 3, 4, 5, 6, 7].all fun p => allIoconBits.any fun nm => bitPos l nm == p

/-- A list of the seven names, each once (00_scope.md R8). -/
def emitOrderAdmissible (o : List IoconBit) : Bool :=
  (o.length == 7) && allIoconBits.all fun nm => o.contains nm

/-- A finite MAX_PAYLOAD is at least 1 (20_memory.md R52). DESIGN CHOICE (log 25): one above 65282, which R52
forbids an implementation with the FW encoding but does not ask a model to refuse, is accepted, and a count
or offset that then needs more than 16 bits is a free value in the output word (log 13). -/
def maxPayloadAdmissible (n : Option Nat) : Bool := n != some 0

/-- A parameter value the spec allows. A model refuses another (41_register_decoder.md R142,
92_eei_decisions.md D21; log 15). -/
def paramsAdmissible (p : Params) : Bool :=
  maxPayloadAdmissible p.maxPayload && regMapAdmissible p.regMap && layoutAdmissible p.layout &&
    emitOrderAdmissible p.emitOrder

end Sys2Proof.Machine
end

