-- ==== Sys2Proof/Machine/State.lean ====
section
/-! DEFINITION. The state of the block, the decoded record and its words, why a step may stop, and the
state after reset. -/

namespace Sys2Proof.Machine

/-- R.rs (10_state.md R22). The code 0b11 has no constructor (30_encoding.md R84; log 17). -/
inductive FsmState where
  | idle | sawStart | inTxn
  deriving DecidableEq, Repr

/-- The bank-mode table B[0..7]; entry i is the bank mode of chip 0x20 + i (10_state.md R28). -/
abbrev BankTable := Vector Bool 8

/-- One completed logical transaction (00_scope.md R13, 40_reassembler.md R106). -/
structure Txn where
  startTime : Time
  endTime : Time
  bytes : List Byte
  isRead : Bool
  chip : ChipAddr
  truncated : Bool
  deriving DecidableEq, Repr

/-- One field of a decoded record (00_scope.md R13). An offset is a natural number (41_register_decoder.md
R152). -/
inductive Field where
  | reg (id : RegId) (value : Byte)
  | unrec (offset : Nat) (value : Byte)
  | bit (name : IoconBit) (value : Bool)
  deriving DecidableEq, Repr

/-- One decoded record (00_scope.md R13, 41_register_decoder.md R158). -/
structure Record where
  startTime : Time
  endTime : Time
  chip : ChipAddr
  isRead : Bool
  truncated : Bool
  fields : List Field
  deriving DecidableEq, Repr

/-- A word on the output port, before it is narrowed to 32 bits: the header with the record's timestamps
beside it, or a field word (30_encoding.md R79 to R83). Counts and offsets are still natural numbers. -/
inductive OutWord where
  | header (count : Nat) (isRead trunc : Bool) (chip : ChipAddr) (startTime endTime : Time)
  | reg (id : RegId) (value : Byte)
  | unrec (offset : Nat) (value : Byte)
  | bit (name : IoconBit) (pos : BitVec 3) (value : Bool)
  deriving DecidableEq, Repr

/-- The state (R, B, CFG) of 10_state.md R21, and three fields of the model's own: the parameters of
00_scope.md R8 (log 1), what the host has still to present (log 8), and what has crossed the output port
(log 9). `none` in t0 and chip is the spec's ⊥. -/
structure State where
  rs : FsmState
  t0 : Option Time
  chip : Option ChipAddr
  rd : Bool
  buf : List Byte
  trunc : Bool
  bank : BankTable
  initBank : Bool
  verbose : Bool
  params : Params
  input : List PortWord
  output : List OutWord
  deriving DecidableEq, Repr

/-- Why the machine stops with a fault. The block itself has none (60_exceptions.md R200): each is a STOP
in IN_TXN in a state that no run reaches (10_state.md R34), where 93_implementation_defined.md U5 asks
for a fault. All are safe (log 14). -/
inductive Fault where
  /-- Raised by STOP in IN_TXN when R.t0 holds ⊥. Safe. -/
  | emptyStartTime
  /-- Raised by STOP in IN_TXN when R.chip holds ⊥. Safe. -/
  | emptyChip
  /-- Raised by STOP in IN_TXN when R.chip lies outside the watched window, where idx is not defined
  (10_state.md R29). Safe. -/
  | chipOutsideWindow
  deriving DecidableEq, Repr

/-- Why a step has no meaning. -/
inductive Refusal where
  /-- Raised by an arm of exec whose operation has no meaning yet. Safe. -/
  | notModelled (mnemonic : String)
  /-- Raised by the step when the word presented is a reserved output word, which a consumer must
  refuse (93_implementation_defined.md U3). No event word raises it (30_encoding.md R77). Safe. -/
  | reservedWord (e : DecodeError)
  /-- Raised by the step when a timestamp of the word presented is no value of TIME, so that the side band
  cannot carry it (30_encoding.md R76; log 2). Safe. -/
  | timestampOutsideTime
  /-- Raised by the step when the machine's parameters break 41_register_decoder.md R142, R148 or
  20_memory.md R52, which a model refuses (92_eei_decisions.md D21; log 15). Safe. -/
  | inadmissibleParams
  deriving DecidableEq, Repr

/-- The state after RESET(ib, vb) of a machine with parameters p (10_state.md R35). -/
def State.afterReset (p : Params) (ib vb : Bool) : State :=
  { rs := .idle
    t0 := none
    chip := none
    rd := false
    buf := []
    trunc := false
    bank := Vector.replicate 8 ib
    initBank := ib
    verbose := vb
    params := p
    input := []
    output := [] }

/-- The machine right after RESET(0, 0) with the default parameters. DESIGN CHOICE (log 3): the spec
leaves ib and vb to the host (00_scope.md R7). -/
def State.reset : State := State.afterReset defaultParams false false

end Sys2Proof.Machine
end

