-- ==== Sys2Proof/Machine/Ops.lean ====
section
/-! DEFINITION. The named operations over the state: the Reassembler's, the payload buffer's, the bank
table's, the construction, the output port's and the input's. The block takes no exception and has no
return from one (60_exceptions.md R200, R208); the one shared recovery, `ResetToIdle`, stands here. -/

namespace Sys2Proof.Machine

/-- The 2-bit code of the state register (10_state.md R22). -/
def fsmCode : FsmState → BitVec 2
  | .idle => 0b00
  | .sawStart => 0b01
  | .inTxn => 0b10

/-! ## The Reassembler -/

/-- `ResetToIdle()` (40_reassembler.md R101): every transient element cleared, B and CFG untouched. -/
def State.resetToIdle (s : State) : State :=
  { s with rs := .idle, t0 := none, chip := none, rd := false, buf := [], trunc := false }

/-- The START action of IDLE and of IN_TXN: a fresh attempt with start time `ts` (40_reassembler.md
R103). -/
def State.beginAttempt (s : State) (ts : Time) : State :=
  { s with rs := .sawStart, t0 := some ts, chip := none, rd := false, buf := [], trunc := false }

/-- The action of an accepted ADDRESS: record the chip, accumulate the direction, clear the buffer, be in
IN_TXN (40_reassembler.md R104). -/
def State.openTxn (s : State) (read : Bool) (addr : ChipAddr) : State :=
  { s with
    rs := .inTxn
    chip := some addr
    rd := accumulateDirection s.rd read
    buf := []
    trunc := false }

/-- An ADDRESS event that is not ignored: accepted it opens the transaction, rejected it aborts to IDLE
(40_reassembler.md R104). -/
def State.addressPhase (s : State) (read : Bool) (addr : ChipAddr) (ack : Bool) : State :=
  if accept ack addr then s.openTxn read addr else s.resetToIdle

/-! ## The payload buffer -/

/-- `BufAppend(b)` (20_memory.md R51). -/
def State.bufAppend (s : State) (b : Byte) : State := { s with buf := s.buf ++ [b] }

/-- `R.trunc <- 1` (40_reassembler.md R105). -/
def State.setTrunc (s : State) : State := { s with trunc := true }

/-- A DATA byte in IN_TXN: appended, or dropped with the truncation flag set when the buffer is full
(40_reassembler.md R105, 20_memory.md R52). -/
def State.appendData (s : State) (b : Byte) : State :=
  if bufFull s.params.maxPayload s.buf then s.setTrunc else s.bufAppend b

/-! ## The bank table -/

/-- `BankRead(i)` (20_memory.md R53). -/
def bankRead (b : BankTable) (i : Fin 8) : Bool := b[i]

/-- `BankWrite(i, v)` (20_memory.md R53). -/
def bankWrite (b : BankTable) (i : Fin 8) (v : Bool) : BankTable := b.set i v

/-- The bank table as the decode left it (41_register_decoder.md R150). -/
def State.withBank (s : State) (b : BankTable) : State := { s with bank := b }

/-! ## Construction -/

/-- `RESET(ib, vb)` (70_reset_and_hazards.md R230): CFG, every B[i] and the transient state. The model's
own fields are the host's side and the machine's parameters, and stay (log 24). -/
def State.construct (s : State) (ib vb : Bool) : State :=
  { s.resetToIdle with initBank := ib, verbose := vb, bank := Vector.replicate 8 ib }

/-! ## The output port -/

/-- One word crosses the output port, after all the earlier ones (30_encoding.md R86). -/
def State.putWord (s : State) (w : OutWord) : State := { s with output := s.output ++ [w] }

/-- The word of a field; a BIT word names the position IOCON_LAYOUT gives the bit (30_encoding.md R81 to
R83). -/
def fieldWord (l : Layout) : Field → OutWord
  | .reg id value => .reg id value
  | .unrec offset value => .unrec offset value
  | .bit name value => .bit name (bitPos l name) value

/-- The words of a record: the header with the number of fields, then the field words in order
(30_encoding.md R79, R85). -/
def recordWords (l : Layout) (r : Record) : List OutWord :=
  .header r.fields.length r.isRead r.truncated r.chip r.startTime r.endTime ::
    r.fields.map (fieldWord l)

/-- `Emit(rec)`: the record's words cross the output port one after another (30_encoding.md R86). -/
def State.emit (s : State) (r : Record) : State :=
  (recordWords s.params.layout r).foldl State.putWord s

/-! ## The input -/

/-- The word the host presents next and the state with that word taken, none when nothing is pending
(30_encoding.md R70; log 8). -/
def State.takeInput (s : State) : Option (PortWord × State) :=
  match s.input with
  | [] => none
  | w :: rest => some (w, { s with input := rest })

/-- The timestamps beside a word are of TIME (30_encoding.md R70, R76). -/
def timesFit (timeWidth : Option Nat) : PortWord → Bool
  | .evw _ ts te => timeFits timeWidth ts && timeFits timeWidth te
  | .reset _ _ => true
  | .hw _ startTime endTime => timeFits timeWidth startTime && timeFits timeWidth endTime
  | .fw _ => true

/-- The operation that a presented word stands for, or why the word is refused: a timestamp that is none of
TIME, or a reserved output word (93_implementation_defined.md U3). -/
def readWord (p : Params) (w : PortWord) : Except Refusal Instr :=
  if timesFit p.timeWidth w then
    match decode w with
    | .ok i => .ok i
    | .error e => .error (.reservedWord e)
  else .error .timestampOutsideTime

/-- The host presents a word before everything it has still to present. -/
def State.present (s : State) (w : PortWord) : State := { s with input := w :: s.input }

end Sys2Proof.Machine
end

