-- ==== Sys2Proof/Machine/Construction.lean ====
section
/-! DEFINITION. The meaning of RESET (70_reset_and_hazards.md R230). -/

namespace Sys2Proof.Machine

/-- RESET(ib, vb), legal at any time; an open attempt is dropped without output
(70_reset_and_hazards.md R230 to R232). -/
def execReset (ib vb : Bool) (s : State) : Host.Outcome State Fault Refusal :=
  .next (s.construct ib vb)

end Sys2Proof.Machine
end

