-- ==== Sys2Proof/Machine/OutputPort.lean ====
section
/-! DEFINITION. The meanings of the four forms of output word, each the passage of that one word over the
output port (log 10), and the views of the port: its 32-bit words and the records on it. STOP's Emit
passes the same words in order (30_encoding.md R86). -/

namespace Sys2Proof.Machine

/-- RECORD_HEADER: the header word of a record (30_encoding.md R79, R86). -/
def execRecordHeader (count : BitVec 16) (isRead trunc : Bool) (chip : ChipAddr)
    (startTime endTime : Time) (s : State) : Host.Outcome State Fault Refusal :=
  .next (s.putWord (.header count.toNat isRead trunc chip startTime endTime))

/-- FIELD_REG: a register and its value (30_encoding.md R81, 41_register_decoder.md R151). -/
def execFieldReg (id : RegId) (value : Byte) (s : State) : Host.Outcome State Fault Refusal :=
  .next (s.putWord (.reg id value))

/-- FIELD_UNREC: an unrecognized offset and its value (30_encoding.md R82, 41_register_decoder.md R156). -/
def execFieldUnrec (offset : BitVec 16) (value : Byte) (s : State) :
    Host.Outcome State Fault Refusal :=
  .next (s.putWord (.unrec offset.toNat value))

/-- FIELD_BIT: one named IOCON bit (30_encoding.md R83, 41_register_decoder.md R155). -/
def execFieldBit (name : IoconBit) (pos : BitVec 3) (val : Bool) (s : State) :
    Host.Outcome State Fault Refusal :=
  .next (s.putWord (.bit name pos val))

/-- A natural number in a 16-bit field: the number itself where it fits (20_memory.md R52), else the free
value of the field (log 13). -/
def narrow16 (free : Nat → BitVec 16) (n : Nat) : BitVec 16 :=
  if n < 2 ^ 16 then BitVec.ofNat 16 n else free n

/-- The 32 bits of a word on the output port (30_encoding.md R79 to R83). -/
def outWordBits : OutWord → OutputWord
  | .header count isRead trunc chip _ _ =>
    headerBits (narrow16 Config.freeFieldCount count) isRead trunc chip
  | .reg id value => fieldRegBits id value
  | .unrec offset value => fieldUnrecBits (narrow16 Config.freeOffset offset) value
  | .bit name pos value => fieldBitBits name pos value

/-- Everything that has crossed the output port, as 32-bit words. -/
def State.outputBits (s : State) : List OutputWord := s.output.map outWordBits

/-- The field of a field word; a header is none. -/
def wordField : OutWord → Option Field
  | .header _ _ _ _ _ _ => none
  | .reg id value => some (.reg id value)
  | .unrec offset value => some (.unrec offset value)
  | .bit name _ value => some (.bit name value)

/-- The field words at the head of a word stream, as fields: those before the next header. -/
def leadingFields : List OutWord → List Field
  | [] => []
  | w :: ws =>
    match wordField w with
    | none => []
    | some f => f :: leadingFields ws

/-- The records of a word stream, in order: one for each header, with the field words up to the next
header (30_encoding.md R85). The result of a run is this list and the bank table
(70_reset_and_hazards.md R241). -/
def recordsOf : List OutWord → List Record
  | [] => []
  | .header _ isRead trunc chip startTime endTime :: ws =>
    { startTime := startTime
      endTime := endTime
      chip := chip
      isRead := isRead
      truncated := trunc
      fields := leadingFields ws } :: recordsOf ws
  | .reg _ _ :: ws => recordsOf ws
  | .unrec _ _ :: ws => recordsOf ws
  | .bit _ _ _ :: ws => recordsOf ws

end Sys2Proof.Machine
end

