-- ==== Sys2Proof/Machine/RegisterDecoder.lean ====
section
/-! DEFINITION. The Register Decoder: `Decode(txn)` of 41_register_decoder.md R151. -/

namespace Sys2Proof.Machine

/-- The seven BIT fields of an IOCON value, in IOCON_EMIT_ORDER (41_register_decoder.md R155). -/
def verboseFields (p : Params) (v : Byte) : List Field :=
  p.emitOrder.map fun nm => .bit nm (namedBit p.layout nm v)

/-- The fields of one value byte at an offset that resolves as given: UNREC, a verbose group, or REG
(41_register_decoder.md R151, R155, R156). -/
def valueFields (p : Params) (verbose : Bool) (off : Nat) (v : Byte) : Option RegId → List Field
  | none => [.unrec off v]
  | some id => if isConfig id && verbose then verboseFields p v else [.reg id v]

/-- The bank table after one value byte: a write that resolves to IOCON replaces the chip's mode, nothing
else writes it (41_register_decoder.md R154, R156). -/
def valueBank (isRead : Bool) (i : Fin 8) (v : Byte) (b : BankTable) : Option RegId → BankTable
  | none => b
  | some id => if isConfig id && !isRead then bankWrite b i (bankSel v) else b

/-- The loop over the value bytes: each resolves its offset with the bank mode that holds when it is
reached (41_register_decoder.md R151, R152, R153). -/
def decodeValues (p : Params) (verbose isRead : Bool) (i : Fin 8) :
    Nat → List Byte → BankTable → BankTable × List Field
  | _, [], b => (b, [])
  | off, v :: vs, b =>
    let id := mapLookup p.regMap (bankRead b i) off
    let rest := decodeValues p verbose isRead i (nextOffset off) vs (valueBank isRead i v b id)
    (rest.1, valueFields p verbose off v id ++ rest.2)

/-- The fields of a payload and the bank table after it: the first byte is the offset, and an empty or
one-byte payload gives no field (41_register_decoder.md R151, R157). -/
def decodePayload (p : Params) (verbose isRead : Bool) (i : Fin 8) (bytes : List Byte)
    (b : BankTable) : BankTable × List Field :=
  match bytes with
  | [] => (b, [])
  | o :: vs => decodeValues p verbose isRead i o.toNat vs b

/-- The record of a transaction with the fields decoded from it (41_register_decoder.md R158). -/
def recordOf (txn : Txn) (fields : List Field) : Record :=
  { startTime := txn.startTime
    endTime := txn.endTime
    chip := txn.chip
    isRead := txn.isRead
    truncated := txn.truncated
    fields := fields }

/-- `Decode(txn)` for the bank index i of its chip: the bank table and the record
(41_register_decoder.md R151). -/
def decodeTxn (p : Params) (verbose : Bool) (i : Fin 8) (txn : Txn) (b : BankTable) :
    BankTable × Record :=
  let r := decodePayload p verbose txn.isRead i txn.bytes b
  (r.1, recordOf txn r.2)

end Sys2Proof.Machine
end

