-- ==== Sys2Proof/Machine/Reassembler.lean ====
section
/-! DEFINITION. The meanings of the four input events (40_reassembler.md R103 to R106). -/

namespace Sys2Proof.Machine

/-- START (40_reassembler.md R103). A START in SAW_START aborts to IDLE; `te` is not read. -/
def execStart (ts _te : Time) (s : State) : Host.Outcome State Fault Refusal :=
  match s.rs with
  | .idle => .next (s.beginAttempt ts)
  | .sawStart => .next s.resetToIdle
  | .inTxn => .next (s.beginAttempt ts)

/-- ADDRESS (40_reassembler.md R104). The timestamps are not read. -/
def execAddress (read : Bool) (addr : ChipAddr) (ack : Bool) (_ts _te : Time) (s : State) :
    Host.Outcome State Fault Refusal :=
  match s.rs with
  | .idle => .next s
  | .sawStart => .next (s.addressPhase read addr ack)
  | .inTxn =>
    match s.params.addrInTxn with
    | .rephase => .next (s.addressPhase read addr ack)
    | .ignore => .next s

/-- DATA (40_reassembler.md R105). The timestamps are not read. -/
def execData (byte : Byte) (_ts _te : Time) (s : State) : Host.Outcome State Fault Refusal :=
  match s.rs with
  | .idle => .next s
  | .sawStart => .next s.resetToIdle
  | .inTxn => .next (s.appendData byte)

/-- The transaction that a STOP with end time `te` completes (40_reassembler.md R106). -/
def State.completedTxn (s : State) (startTime te : Time) (chip : ChipAddr) : Txn :=
  { startTime := startTime
    endTime := te
    bytes := s.buf
    isRead := s.rd
    chip := chip
    truncated := s.trunc }

/-- A STOP in IN_TXN whose transaction has the start time, chip and bank index given: back to IDLE, then
Decode, then Emit (40_reassembler.md R106, 60_exceptions.md R207). -/
def State.finishTxn (s : State) (startTime te : Time) (chip : ChipAddr) (i : Fin 8) : State :=
  let d := decodeTxn s.params s.verbose i (s.completedTxn startTime te chip) s.bank
  (s.resetToIdle.withBank d.1).emit d.2

/-- STOP (40_reassembler.md R106); `ts` is not read. A read of ⊥, or of the bank table for a chip outside
the window, faults (93_implementation_defined.md U5; log 14); no reachable state has either. -/
def execStop (_ts te : Time) (s : State) : Host.Outcome State Fault Refusal :=
  match s.rs with
  | .idle => .next s
  | .sawStart => .next s.resetToIdle
  | .inTxn =>
    match s.t0 with
    | none => .fault .emptyStartTime
    | some startTime =>
      match s.chip with
      | none => .fault .emptyChip
      | some chip =>
        match bankIndex chip with
        | none => .fault .chipOutsideWindow
        | some i => .next (s.finishTxn startTime te chip i)

end Sys2Proof.Machine
end

