-- ==== Sys2Proof/Machine/Dispatch.lean ====
section
/-! DEFINITION. Which meaning each operation has. -/

namespace Sys2Proof.Machine

def exec (i : Instr) (s : State) : Host.Outcome State Fault Refusal :=
  match i with
  | .start ts te => Sys2Proof.Machine.execStart ts te s
  | .address read addr ack ts te => Sys2Proof.Machine.execAddress read addr ack ts te s
  | .data byte ts te => Sys2Proof.Machine.execData byte ts te s
  | .stop ts te => Sys2Proof.Machine.execStop ts te s
  | .reset ib vb => Sys2Proof.Machine.execReset ib vb s
  | .recordHeader count isRead trunc chip startTime endTime => Sys2Proof.Machine.execRecordHeader count isRead trunc chip startTime endTime s
  | .fieldReg id value => Sys2Proof.Machine.execFieldReg id value s
  | .fieldUnrec offset value => Sys2Proof.Machine.execFieldUnrec offset value s
  | .fieldBit name pos val => Sys2Proof.Machine.execFieldBit name pos val s

end Sys2Proof.Machine
end

