-- ==== Sys2Proof/Machine/Step.lean ====
section
/-! DEFINITION. One step of the block: it takes the word the host presents next, decodes it and runs it
(00_scope.md R12, 40_reassembler.md R100). -/

namespace Sys2Proof.Machine

/-- One step. A machine with parameters the spec does not allow is refused (41_register_decoder.md R142,
92_eei_decisions.md D21). With nothing pending the block holds its state (60_exceptions.md R215). -/
def step (s : State) : Host.Outcome State Fault Refusal :=
  if paramsAdmissible s.params then
    match s.takeInput with
    | none => .next s
    | some (w, s') =>
      match readWord s.params w with
      | .ok i => exec i s'
      | .error r => .refused r
  else .refused .inadmissibleParams

/-- The state with the table word presented before everything else, so that the next step runs it; a
number that is no word of the row's length is not presented. -/
def State.withFetchWord (s : State) (nbits w : Nat) : State :=
  match tableWord nbits w with
  | some p => s.present p
  | none => s

end Sys2Proof.Machine
end

