-- ==== Sys2Proof/Machine/Text.lean ====
section
/-! DEFINITION. The text forms: the per-field strings the core produces (41_register_decoder.md R141, R160,
R161), the direction label (R158), and the event text with its two pseudo-operations (30_encoding.md R88,
R89). The mnemonics other than IOCON, GPIO, BANK and HAEN are PRESUMED, the datasheet's (logs 6, 7). -/

namespace Sys2Proof.Machine

/-! ## The output -/

/-- The mnemonic of a register kind (41_register_decoder.md R140). -/
def kindName : RegKind → String
  | .iodir => "IODIR"
  | .ipol => "IPOL"
  | .gpinten => "GPINTEN"
  | .defval => "DEFVAL"
  | .intcon => "INTCON"
  | .iocon => "IOCON"
  | .gppu => "GPPU"
  | .intf => "INTF"
  | .intcap => "INTCAP"
  | .gpio => "GPIO"
  | .olat => "OLAT"

/-- The letter of a port (41_register_decoder.md R141). -/
def portName : Port → String
  | .a => "A"
  | .b => "B"

/-- `Name(kind, port)`: the mnemonic and the port letter, but `IOCON` for both ports of that kind
(41_register_decoder.md R141, 90_conflicts.md C8). -/
def regName (id : RegId) : String :=
  if isConfig id then kindName id.kind else kindName id.kind ++ portName id.port

/-- The name of an IOCON bit (41_register_decoder.md R147). -/
def bitName : IoconBit → String
  | .bank => "BANK"
  | .mirror => "MIRROR"
  | .seqop => "SEQOP"
  | .disslw => "DISSLW"
  | .haen => "HAEN"
  | .odr => "ODR"
  | .intpol => "INTPOL"

/-- At least two lower-case hex digits, with no leading zero beyond two (41_register_decoder.md R161). -/
def hexDigits (n : Nat) : List Char :=
  if n < 16 then '0' :: Nat.toDigits 16 n else Nat.toDigits 16 n

/-- `HexOff(off)` (41_register_decoder.md R161, 90_conflicts.md C10). -/
def hexOff (n : Nat) : String := "0x" ++ String.ofList (hexDigits n)

/-- `Hex2(v)`: two digits, since a byte is below 0x100 (41_register_decoder.md R161). -/
def hex2 (v : Byte) : String := hexOff v.toNat

/-- `True` or `False` (41_register_decoder.md R160). -/
def boolText (b : Bool) : String := if b then "True" else "False"

/-- The text of a field (41_register_decoder.md R160). -/
def fieldText : Field → String
  | .reg id value => regName id ++ "=" ++ hex2 value
  | .bit name value => bitName name ++ "=" ++ boolText value
  | .unrec offset value => hexOff offset ++ " (unrecognized)=" ++ hex2 value

/-- `direction_label` (41_register_decoder.md R158). -/
def directionLabel (r : Record) : String := if r.isRead then "read" else "write"

/-- The field strings of a record, in order (41_register_decoder.md R158, R160). -/
def recordText (r : Record) : List String := r.fields.map fieldText

/-! ## Pseudo-operations -/

/-- The events of one whole attempt: START, an acknowledged ADDRESS, the DATA bytes, STOP, with timestamps
0 (30_encoding.md R89). -/
def attemptEvents (read : Bool) (addr : ChipAddr) (bytes : List Byte) : List Instr :=
  [.start 0 0, .address read addr true 0 0] ++ (bytes.map fun b => .data b 0 0) ++ [.stop 0 0]

/-- `WRITE <addr> [b0, …, bn]` (30_encoding.md R89). -/
def writeEvents (addr : ChipAddr) (bytes : List Byte) : List Instr := attemptEvents false addr bytes

/-- `READ <addr> [b0, …, bn]` (30_encoding.md R89). -/
def readEvents (addr : ChipAddr) (bytes : List Byte) : List Instr := attemptEvents true addr bytes

/-! ## Writing events as text -/

/-- The text of an event, without its timestamps; none for what is no event (30_encoding.md R88). -/
def eventText : Instr → Option String
  | .start _ _ => some "S"
  | .address read addr ack _ _ =>
    some ("A " ++ hexOff addr.toNat ++ (if read then " R" else " W") ++ (if ack then " ACK" else " NACK"))
  | .data byte _ _ => some ("D " ++ hex2 byte)
  | .stop _ _ => some "P"
  | .reset _ _ => none
  | .recordHeader _ _ _ _ _ _ => none
  | .fieldReg _ _ => none
  | .fieldUnrec _ _ => none
  | .fieldBit _ _ _ => none

/-- The suffix `@ts,te` (30_encoding.md R88); the numbers are decimal (log 22). -/
def timeSuffix (ts te : Time) : String :=
  " @" ++ String.ofList (Nat.toDigits 10 ts) ++ "," ++ String.ofList (Nat.toDigits 10 te)

/-! ## Reading events from text -/

/-- The pieces of a line between separators; `cur` holds the piece being read, reversed. -/
def tokens (sep : Char → Bool) : List Char → List Char → List (List Char)
  | [], cur => if cur.isEmpty then [] else [cur.reverse]
  | c :: cs, cur =>
    if sep c then
      if cur.isEmpty then tokens sep cs [] else cur.reverse :: tokens sep cs []
    else tokens sep cs (c :: cur)

/-- The value of a hex digit of either case. -/
def digitValue (c : Char) : Option Nat :=
  if '0' ≤ c ∧ c ≤ '9' then some (c.toNat - '0'.toNat)
  else if 'a' ≤ c ∧ c ≤ 'f' then some (c.toNat - 'a'.toNat + 10)
  else if 'A' ≤ c ∧ c ≤ 'F' then some (c.toNat - 'A'.toNat + 10)
  else none

/-- The number that digits of a base spell, on top of `acc`. -/
def digitsValue (base : Nat) : List Char → Nat → Option Nat
  | [], acc => some acc
  | c :: cs, acc =>
    match digitValue c with
    | none => none
    | some d => if d < base then digitsValue base cs (acc * base + d) else none

/-- A hexadecimal literal such as `0x20`, below a bound (30_encoding.md R88). -/
def readHex (bound : Nat) : List Char → Option Nat
  | '0' :: 'x' :: c :: cs => (digitsValue 16 (c :: cs) 0).filter (fun n => decide (n < bound))
  | _ => none

/-- A 7-bit address literal. -/
def readAddr (t : List Char) : Option ChipAddr := (readHex 0x80 t).map (BitVec.ofNat 7)

/-- A byte literal. -/
def readByte (t : List Char) : Option Byte := (readHex 0x100 t).map (BitVec.ofNat 8)

/-- The byte literals of a list, none if one of them is not a byte. -/
def readBytes : List (List Char) → Option (List Byte)
  | [] => some []
  | t :: ts => (readByte t).bind fun b => (readBytes ts).map fun bs => b :: bs

/-- The timestamps of a suffix `ts,te`, after its `@`. -/
def readTimes (t : List Char) : Option (Time × Time) :=
  match tokens (· == ',') t [] with
  | [a, b] => (digitsValue 10 a 0).bind fun ts => (digitsValue 10 b 0).map fun te => (ts, te)
  | _ => none

/-- One event from its pieces and its timestamps (30_encoding.md R88). -/
def readEvent (ts te : Time) : List (List Char) → Option Instr
  | [['S']] => some (.start ts te)
  | [['P']] => some (.stop ts te)
  | [['D'], b] => (readByte b).map fun byte => .data byte ts te
  | [['A'], a, ['W'], ['A', 'C', 'K']] => (readAddr a).map fun addr => .address false addr true ts te
  | [['A'], a, ['R'], ['A', 'C', 'K']] => (readAddr a).map fun addr => .address true addr true ts te
  | [['A'], a, ['W'], ['N', 'A', 'C', 'K']] =>
    (readAddr a).map fun addr => .address false addr false ts te
  | [['A'], a, ['R'], ['N', 'A', 'C', 'K']] =>
    (readAddr a).map fun addr => .address true addr false ts te
  | _ => none

/-- The events of the pieces of a line: an event with or without its suffix; timestamps that are not
written are 0 (30_encoding.md R88, 95_test_vectors.md's opening). -/
def readEventLine (toks : List (List Char)) : Option (List Instr) :=
  match toks.getLast? with
  | some ('@' :: t) =>
    (readTimes t).bind fun times => (readEvent times.1 times.2 toks.dropLast).map fun i => [i]
  | _ => (readEvent 0 0 toks).map fun i => [i]

/-- One line of event text, a pseudo-operation included (30_encoding.md R88, R89). DESIGN CHOICE (log 22):
pieces are set apart by spaces, and in a pseudo-operation by commas and square brackets too, so that a byte
list may be written without brackets, and may be empty, which gives an attempt with no DATA. -/
def readLine (line : String) : Option (List Instr) :=
  match tokens (fun c => c == ' ' || c == ',' || c == '[' || c == ']') line.toList [] with
  | ['W', 'R', 'I', 'T', 'E'] :: a :: bs =>
    (readAddr a).bind fun addr => (readBytes bs).map (writeEvents addr)
  | ['R', 'E', 'A', 'D'] :: a :: bs =>
    (readAddr a).bind fun addr => (readBytes bs).map (readEvents addr)
  | _ => readEventLine (tokens (· == ' ') line.toList [])

end Sys2Proof.Machine
end

