-- ==== Sys2Proof/Safety.lean ====
section
/-! DEFINITION. What claims are stated in: the invariant of 10_state.md R34, runs, what a host may present,
the host's ordering duty, and the comparisons between states that frames and isolation claims use. -/

namespace Sys2Proof.Machine

/-! ## The invariant -/

/-- `len(R.buf) ≤ MAX_PAYLOAD`, with ∞ for none (10_state.md R34). -/
def payloadFits (maxPayload : Option Nat) (len : Nat) : Bool :=
  match maxPayload with
  | none => true
  | some n => decide (len ≤ n)

/-- Every transient element of the Reassembler at its value in IDLE (40_reassembler.md R101). -/
abbrev State.TransientCleared (s : State) : Prop :=
  s.rs = .idle ∧ s.t0 = none ∧ s.chip = none ∧ s.rd = false ∧ s.buf = [] ∧ s.trunc = false

/-- The four invariants of 10_state.md R34, in its order. -/
abbrev State.Inv (s : State) : Prop :=
  (s.rs = .idle → s.t0 = none ∧ s.chip = none ∧ s.rd = false ∧ s.buf = [] ∧ s.trunc = false) ∧
  (s.rs = .sawStart →
    s.t0.isSome = true ∧ s.chip = none ∧ s.rd = false ∧ s.buf = [] ∧ s.trunc = false) ∧
  (s.rs = .inTxn →
    s.t0.isSome = true ∧ s.chip.any inWindow = true ∧
      payloadFits s.params.maxPayload s.buf.length = true) ∧
  (s.trunc = true → s.rs = .inTxn ∧ s.params.maxPayload.isSome = true)

/-- A header's timestamps are of TIME; a field word has none. -/
def outTimesFit (timeWidth : Option Nat) : OutWord → Bool
  | .header _ _ _ _ startTime endTime => timeFits timeWidth startTime && timeFits timeWidth endTime
  | .reg _ _ => true
  | .unrec _ _ => true
  | .bit _ _ _ => true

/-- The start time held and every timestamp that has crossed the output port are of TIME (00_scope.md R13,
30_encoding.md R76). -/
abbrev State.TimesOfTime (s : State) : Prop :=
  s.t0.all (timeFits s.params.timeWidth) = true ∧
    s.output.all (outTimesFit s.params.timeWidth) = true

/-! ## Runs -/

/-- `k` steps, stopping at the first fault or refusal. -/
def run : Nat → State → Host.Outcome State Fault Refusal
  | 0, s => .next s
  | k + 1, s =>
    match step s with
    | .next t => run k t
    | .fault r => .fault r
    | .refused r => .refused r

/-- Operations run one after another, stopping at the first fault or refusal. -/
def execAll : List Instr → State → Host.Outcome State Fault Refusal
  | [], s => .next s
  | i :: is, s =>
    match exec i s with
    | .next t => execAll is t
    | .fault r => .fault r
    | .refused r => .refused r

/-- The outcome with a change made to its next state. -/
def mapNext (g : State → State) :
    Host.Outcome State Fault Refusal → Host.Outcome State Fault Refusal
  | .next t => .next (g t)
  | .fault r => .fault r
  | .refused r => .refused r

/-! ## What the host presents -/

/-- The operation is one of the four input events (30_encoding.md R71). -/
def isEvent : Instr → Bool
  | .start _ _ => true
  | .address _ _ _ _ _ => true
  | .data _ _ _ => true
  | .stop _ _ => true
  | .reset _ _ => false
  | .recordHeader _ _ _ _ _ _ => false
  | .fieldReg _ _ => false
  | .fieldUnrec _ _ => false
  | .fieldBit _ _ _ => false

/-- The host may present event words and RESET, never an output word (70_reset_and_hazards.md R240). -/
def hostWord : PortWord → Bool
  | .evw _ _ _ => true
  | .reset _ _ => true
  | .hw _ _ _ => false
  | .fw _ => false

/-- Everything still to be presented is the host's to present, with timestamps of TIME. -/
abbrev State.HostDriven (s : State) : Prop :=
  s.input.all (fun w => hostWord w && timesFit s.params.timeWidth w) = true

/-- An event word that is not an ADDRESS acknowledged inside the window: what a filter sees of foreign,
unacknowledged and stray traffic (60_exceptions.md R201). -/
def filteredWord : PortWord → Bool
  | .evw w ts te =>
    match decodeEvent w ts te with
    | .address _ addr ack _ _ => !accept ack addr
    | _ => true
  | .reset _ _ => false
  | .hw _ _ _ => false
  | .fw _ => false

/-- The ordering duty (70_reset_and_hazards.md R235): from `now` on, each event starts no earlier than the
one before it ended, and ends no earlier than it starts. RESET has no time. -/
def chronological : Time → List PortWord → Bool
  | _, [] => true
  | now, .evw _ ts te :: ws => decide (now ≤ ts) && decide (ts ≤ te) && chronological te ws
  | now, .reset _ _ :: ws => chronological now ws
  | now, .hw _ _ _ :: ws => chronological now ws
  | now, .fw _ :: ws => chronological now ws

/-- A header's `start_time ≤ end_time`; a field word has no times. -/
def timesOrdered : OutWord → Bool
  | .header _ _ _ _ startTime endTime => decide (startTime ≤ endTime)
  | .reg _ _ => true
  | .unrec _ _ => true
  | .bit _ _ _ => true

/-- A header's chip lies in the watched window. -/
def chipWatched : OutWord → Bool
  | .header _ _ _ chip _ _ => inWindow chip
  | .reg _ _ => true
  | .unrec _ _ => true
  | .bit _ _ _ => true

/-- The word's count or offset fits its 16-bit field (20_memory.md R52). -/
def wordFits : OutWord → Bool
  | .header count _ _ _ _ _ => decide (count < 2 ^ 16)
  | .reg _ _ => true
  | .unrec offset _ => decide (offset < 2 ^ 16)
  | .bit _ _ _ => true

/-- The output row of spec/opcode_table.json that a word on the port is. -/
def wordInstr : OutWord → Instr
  | .header count isRead trunc chip startTime endTime =>
    .recordHeader (BitVec.ofNat 16 count) isRead trunc chip startTime endTime
  | .reg id value => .fieldReg id value
  | .unrec offset value => .fieldUnrec (BitVec.ofNat 16 offset) value
  | .bit name pos value => .fieldBit name pos value

/-- The words of one whole attempt as the host presents them: START, an acknowledged ADDRESS, the DATA
bytes each with its timestamps, STOP. -/
def attemptWords (startTs startTe : Time) (read : Bool) (addr : ChipAddr) (addrTs addrTe : Time)
    (bytes : List (Byte × Time × Time)) (stopTs stopTe : Time) : List PortWord :=
  [encode (.start startTs startTe), encode (.address read addr true addrTs addrTe)] ++
    bytes.map (fun b => encode (.data b.1 b.2.1 b.2.2)) ++ [encode (.stop stopTs stopTe)]

/-! ## Comparisons between states -/

/-- Everything outside the Reassembler is as before: the bank table, the configuration, and the model's
own fields. -/
abbrev State.SameOutsideReassembler (s t : State) : Prop :=
  t.bank = s.bank ∧ t.initBank = s.initBank ∧ t.verbose = s.verbose ∧ t.params = s.params ∧
    t.input = s.input ∧ t.output = s.output

/-- The bits of an event word that its TYPE reads (30_encoding.md R72 to R75). -/
def readBits (w : EventWord) : EventWord :=
  if w.extractLsb' 10 2 = 0b01#2 then w &&& 0xF7F
  else if w.extractLsb' 10 2 = 0b10#2 then w &&& 0xCFF
  else w &&& 0xC00

/-- Every timestamp of a word to be presented, renamed. -/
def renameWord (f : Time → Time) : PortWord → PortWord
  | .evw w ts te => .evw w (f ts) (f te)
  | .reset ib vb => .reset ib vb
  | .hw w startTime endTime => .hw w (f startTime) (f endTime)
  | .fw w => .fw w

/-- Every timestamp of a word on the output port, renamed. -/
def renameOut (f : Time → Time) : OutWord → OutWord
  | .header count isRead trunc chip startTime endTime =>
    .header count isRead trunc chip (f startTime) (f endTime)
  | .reg id value => .reg id value
  | .unrec offset value => .unrec offset value
  | .bit name pos value => .bit name pos value

/-- Every timestamp of a state, renamed. -/
def State.rename (f : Time → Time) (s : State) : State :=
  { s with
    t0 := s.t0.map f
    input := s.input.map (renameWord f)
    output := s.output.map (renameOut f) }

/-- More words had crossed the output port before. -/
def State.withEarlierOutput (o : List OutWord) (s : State) : State :=
  { s with output := o ++ s.output }

end Sys2Proof.Machine
end

