-- ==== Sys2Proof/Certificates/Slice0/Obligations.lean ====
section
/-! DEFINITION. The statements for the provers. -/

open Sys2Proof Sys2Proof.Machine

/-! ## What each operation does, and leaves unchanged -/

/-- 70_reset_and_hazards.md R230: RESET writes CFG, every B[i] and the transient state, in any state. That
the parameters, the host's pending words and the words already on the output port stay, where 00_scope.md
R12 says that RESET replaces the whole state, is the model's choice (log 24). -/
def Obligations.ResetWritesConfigurationBankAndIdle : Prop :=
  ∀ (ib vb : Bool) (s : State), ∃ t, exec (.reset ib vb) s = .next t ∧
    t.initBank = ib ∧ t.verbose = vb ∧ (∀ i, bankRead t.bank i = ib) ∧ t.TransientCleared ∧
    t.output = s.output ∧ t.params = s.params ∧ t.input = s.input

/-- 40_reassembler.md R103: START begins a fresh attempt from IDLE and from IN_TXN (a repeated start) and
aborts from SAW_START; it emits nothing and writes nothing outside the Reassembler. -/
def Obligations.StartBeginsAnAttemptOrAborts : Prop :=
  ∀ (ts te : Time) (s : State), ∃ t, exec (.start ts te) s = .next t ∧
    (s.rs = .sawStart → t.TransientCleared) ∧
    (s.rs = .idle ∨ s.rs = .inTxn →
      t.rs = .sawStart ∧ t.t0 = some ts ∧ t.chip = none ∧ t.rd = false ∧ t.buf = [] ∧
        t.trunc = false) ∧
    s.SameOutsideReassembler t

/-- 40_reassembler.md R104: ADDRESS is ignored in IDLE, and in IN_TXN under IGNORE; otherwise it opens the
transaction when acknowledged inside the window, with the direction accumulated and the buffer cleared, and
aborts when not. -/
def Obligations.AddressOpensAbortsOrIsIgnored : Prop :=
  ∀ (read : Bool) (addr : ChipAddr) (ack : Bool) (ts te : Time) (s : State),
    ∃ t, exec (.address read addr ack ts te) s = .next t ∧
      (s.rs = .idle ∨ (s.rs = .inTxn ∧ s.params.addrInTxn = .ignore) → t = s) ∧
      (s.rs = .sawStart ∨ (s.rs = .inTxn ∧ s.params.addrInTxn = .rephase) →
        (ack = true ∧ 0x20 ≤ addr.toNat ∧ addr.toNat ≤ 0x27 →
          t.rs = .inTxn ∧ t.t0 = s.t0 ∧ t.chip = some addr ∧ t.rd = (s.rd || read) ∧
            t.buf = [] ∧ t.trunc = false) ∧
        (¬(ack = true ∧ 0x20 ≤ addr.toNat ∧ addr.toNat ≤ 0x27) → t.TransientCleared)) ∧
      s.SameOutsideReassembler t

/-- 40_reassembler.md R105: DATA is ignored in IDLE, aborts from SAW_START, and in IN_TXN appends its byte,
or sets the truncation flag when MAX_PAYLOAD is reached. -/
def Obligations.DataAppendsTruncatesAbortsOrIsIgnored : Prop :=
  ∀ (byte : Byte) (ts te : Time) (s : State), ∃ t, exec (.data byte ts te) s = .next t ∧
    (s.rs = .idle → t = s) ∧
    (s.rs = .sawStart → t.TransientCleared) ∧
    (s.rs = .inTxn →
      (s.params.maxPayload = none ∨ (∃ n, s.params.maxPayload = some n ∧ s.buf.length < n) →
        t.buf = s.buf ++ [byte] ∧ t.trunc = s.trunc) ∧
      ((∃ n, s.params.maxPayload = some n ∧ n ≤ s.buf.length) →
        t.buf = s.buf ∧ t.trunc = true) ∧
      t.rs = s.rs ∧ t.t0 = s.t0 ∧ t.chip = s.chip ∧ t.rd = s.rd) ∧
    s.SameOutsideReassembler t

/-- 40_reassembler.md R106, 41_register_decoder.md R151, R158: STOP is ignored in IDLE, aborts from
SAW_START, and in IN_TXN returns to IDLE, leaves the bank table that the decode of the buffer leaves, and
emits a header with the number of fields, the direction, the truncation flag, the chip, the start time and
this event's end time, then the field words of the decode in order. The premise is the invariant of
10_state.md R34. -/
def Obligations.StopEmitsTheDecodedTransaction : Prop :=
  ∀ (ts te : Time) (s : State), s.Inv → ∃ t, exec (.stop ts te) s = .next t ∧
    (s.rs = .idle → t = s) ∧
    (s.rs = .sawStart → t.TransientCleared ∧ s.SameOutsideReassembler t) ∧
    (s.rs = .inTxn → t.TransientCleared ∧
      ∃ (startTime : Time) (chip : ChipAddr) (i : Fin 8),
        s.t0 = some startTime ∧ s.chip = some chip ∧ i.val + 0x20 = chip.toNat ∧
        t.bank = (decodePayload s.params s.verbose s.rd i s.buf s.bank).1 ∧
        t.output = s.output ++
          .header (decodePayload s.params s.verbose s.rd i s.buf s.bank).2.length s.rd s.trunc chip
            startTime te ::
          (decodePayload s.params s.verbose s.rd i s.buf s.bank).2.map
            (fieldWord s.params.layout)) ∧
    t.initBank = s.initBank ∧ t.verbose = s.verbose ∧ t.params = s.params ∧ t.input = s.input

/-- The model's choice (log 14), after 93_implementation_defined.md U5: STOP faults exactly in IN_TXN with
a missing start time, a missing chip, or a chip outside the window. -/
def Obligations.StopFaultsExactlyOnAMissingPart : Prop :=
  ∀ (ts te : Time) (s : State),
    (exec (.stop ts te) s = .fault .emptyStartTime ↔ s.rs = .inTxn ∧ s.t0 = none) ∧
    (exec (.stop ts te) s = .fault .emptyChip ↔
      s.rs = .inTxn ∧ s.t0.isSome = true ∧ s.chip = none) ∧
    (exec (.stop ts te) s = .fault .chipOutsideWindow ↔
      s.rs = .inTxn ∧ s.t0.isSome = true ∧
        ∃ chip, s.chip = some chip ∧ ¬(0x20 ≤ chip.toNat ∧ chip.toNat ≤ 0x27))

/-- The model's choice (log 10), after 30_encoding.md R86: each of the four output rows passes its one word
over the output port and changes nothing else. -/
def Obligations.OutputRowsPassTheirWord : Prop :=
  (∀ (count : BitVec 16) (isRead trunc : Bool) (chip : ChipAddr) (startTime endTime : Time)
      (s : State), exec (.recordHeader count isRead trunc chip startTime endTime) s =
        .next { s with output := s.output ++
          [.header count.toNat isRead trunc chip startTime endTime] }) ∧
  (∀ (id : RegId) (value : Byte) (s : State),
    exec (.fieldReg id value) s = .next { s with output := s.output ++ [.reg id value] }) ∧
  (∀ (offset : BitVec 16) (value : Byte) (s : State), exec (.fieldUnrec offset value) s =
    .next { s with output := s.output ++ [.unrec offset.toNat value] }) ∧
  (∀ (name : IoconBit) (pos : BitVec 3) (val : Bool) (s : State), exec (.fieldBit name pos val) s =
    .next { s with output := s.output ++ [.bit name pos val] })

/-- 10_state.md R31: only RESET writes the configuration. -/
def Obligations.OnlyResetWritesTheConfiguration : Prop :=
  ∀ (i : Instr) (s t : State), (∀ ib vb, i ≠ .reset ib vb) → exec i s = .next t →
    t.initBank = s.initBank ∧ t.verbose = s.verbose

/-- 30_encoding.md R87, 70_reset_and_hazards.md R234: in IDLE every event but START is ignored. -/
def Obligations.IdleIgnoresEveryEventButStart : Prop :=
  ∀ (i : Instr) (s : State), s.rs = .idle → isEvent i = true → (∀ ts te, i ≠ .start ts te) →
    exec i s = .next s

/-- 40_reassembler.md R110, 10_state.md R34: one STOP leads to IDLE, from every state of the invariant. R110
says "from any state": the premise leaves out the states that no run reaches and in which the model's STOP
faults (log 14). -/
def Obligations.OneStopRecoversToIdle : Prop :=
  ∀ (ts te : Time) (s : State), s.Inv →
    ∃ t, exec (.stop ts te) s = .next t ∧ t.TransientCleared ∧ t.Inv

/-! ## The step -/

/-- 40_reassembler.md R100, 00_scope.md R12: when the word presented first has timestamps of TIME and decodes,
the step takes it and runs its operation. -/
def Obligations.StepRunsTheDecodedOperation : Prop :=
  ∀ (s : State) (w : PortWord) (rest : List PortWord) (i : Instr),
    paramsAdmissible s.params = true → s.input = w :: rest →
      timesFit s.params.timeWidth w = true → decode w = .ok i →
        step s = exec i { s with input := rest }

/-- 60_exceptions.md R215: with no event pending the block holds its state. -/
def Obligations.StepHoldsTheStateWhenNothingIsPending : Prop :=
  ∀ (s : State), paramsAdmissible s.params = true → s.input = [] → step s = .next s

/-- 93_implementation_defined.md U3, 92_eei_decisions.md D21, 30_encoding.md R76: the step refuses a parameter
value that is not allowed (log 15), a timestamp that is none of TIME (log 2) and a reserved output word, and
it refuses nothing else: no event word and no RESET with timestamps of TIME. -/
def Obligations.StepRefusesOnlyForTheNamedReasons : Prop :=
  ∀ (s : State),
    (paramsAdmissible s.params = false → step s = .refused .inadmissibleParams) ∧
    (∀ (w : PortWord) (rest : List PortWord), paramsAdmissible s.params = true →
      s.input = w :: rest → timesFit s.params.timeWidth w = false →
        step s = .refused .timestampOutsideTime) ∧
    (∀ (w : PortWord) (rest : List PortWord) (e : DecodeError), paramsAdmissible s.params = true →
      s.input = w :: rest → timesFit s.params.timeWidth w = true → decode w = .error e →
        step s = .refused (.reservedWord e) ∧ hostWord w = false) ∧
    (∀ r : Refusal, step s = .refused r →
      (paramsAdmissible s.params = false ∧ r = .inadmissibleParams) ∨
      (∃ (w : PortWord) (rest : List PortWord), s.input = w :: rest ∧
        ((timesFit s.params.timeWidth w = false ∧ r = .timestampOutsideTime) ∨
         (∃ e, decode w = .error e ∧ r = .reservedWord e ∧ hostWord w = false))))

/-- The table word placed by withFetchWord is what the next step runs (logs 8, 11, 12). -/
def Obligations.PlacedTableWordRunsNext : Prop :=
  ∀ (nbits w : Nat) (i : Instr) (s : State), paramsAdmissible s.params = true →
    decodeTableWord nbits w = some i → step (s.withFetchWord nbits w) = exec i s

/-! ## Encodings -/

/-- Words written out from the layouts of 30_encoding.md decode to what they stand for, one or more for
each row. -/
def Obligations.WrittenOutWordsDecode : Prop :=
  decode (.evw 0b001111111111 5 6) = .ok (.start 5 6) ∧
  decode (.evw 0b010100100000 0 0) = .ok (.address false 0x20 true 0 0) ∧
  decode (.evw 0b011010100111 0 0) = .ok (.address true 0x27 false 0 0) ∧
  decode (.evw 0b101100001010 0 0) = .ok (.data 0x0A 0 0) ∧
  decode (.evw 0b110000000000 29 30) = .ok (.stop 29 30) ∧
  decode (.reset true false) = .ok (.reset true false) ∧
  decode (.hw 0x00078022 3 4) = .ok (.recordHeader 7 true false 0x22 3 4) ∧
  decode (.fw 0x000B0080) = .ok (.fieldReg ⟨.iocon, .b⟩ 0x80) ∧
  decode (.fw 0x40005AA5) = .ok (.fieldUnrec 0x005A 0xA5) ∧
  decode (.fw 0x80004201) = .ok (.fieldBit .haen 2 true)

/-- 30_encoding.md R71 to R75, R77: every event word decodes, by TYPE, with each operand the number its
field spells and no other bit read. -/
def Obligations.EveryEventWordDecodesByItsFields : Prop :=
  ∀ (w : EventWord) (ts te : Time),
    (w.toNat / 2 ^ 10 = 0 → decode (.evw w ts te) = .ok (.start ts te)) ∧
    (w.toNat / 2 ^ 10 = 1 → ∃ (read ack : Bool) (addr : ChipAddr),
      decode (.evw w ts te) = .ok (.address read addr ack ts te) ∧
      (read = true ↔ w.toNat / 2 ^ 9 % 2 = 1) ∧ (ack = true ↔ w.toNat / 2 ^ 8 % 2 = 1) ∧
      addr.toNat = w.toNat % 2 ^ 7) ∧
    (w.toNat / 2 ^ 10 = 2 → ∃ byte : Byte,
      decode (.evw w ts te) = .ok (.data byte ts te) ∧ byte.toNat = w.toNat % 2 ^ 8) ∧
    (w.toNat / 2 ^ 10 = 3 → decode (.evw w ts te) = .ok (.stop ts te))

/-- Every well-formed operation is read back from its word, whatever its operands. -/
def Obligations.DecodeOfEncodeIsTheOperation : Prop :=
  ∀ i : Instr, i.wellFormed = true → decode (encode i) = .ok i

/-- A word that decodes gives a well-formed operation, and the encoder gives the word back: an event word
but for its reserved bits, an output word exactly. -/
def Obligations.EncodeOfDecodeIsTheWord : Prop :=
  (∀ (w : EventWord) (ts te : Time), ∃ i, decode (.evw w ts te) = .ok i ∧ i.wellFormed = true ∧
    encode i = .evw (readBits w) ts te) ∧
  (∀ (w : OutputWord) (startTime endTime : Time) (i : Instr),
    decode (.hw w startTime endTime) = .ok i →
      i.wellFormed = true ∧ encode i = .hw w startTime endTime) ∧
  (∀ (w : OutputWord) (i : Instr), decode (.fw w) = .ok i →
    i.wellFormed = true ∧ encode i = .fw w)

/-- 30_encoding.md R79 to R84, 93_implementation_defined.md U3: exactly which output words are legal. That a
CHIP outside the window is no reserved code, and that every POS from 1 to 7 is legal for every name, are the
model's readings (logs 18, 21). -/
def Obligations.OutputWordsLegalExactlyByTheirFields : Prop :=
  (∀ (w : OutputWord) (startTime endTime : Time),
    (∃ i, decode (.hw w startTime endTime) = .ok i) ↔ w.toNat / 2 ^ 7 % 2 ^ 7 = 0) ∧
  (∀ w : OutputWord, (∃ i, decode (.fw w) = .ok i) ↔
    (w.toNat / 2 ^ 30 = 0 ∧ w.toNat / 2 ^ 21 % 2 ^ 9 = 0 ∧ w.toNat / 2 ^ 16 % 2 ^ 5 < 22 ∧
      w.toNat / 2 ^ 8 % 2 ^ 8 = 0) ∨
    (w.toNat / 2 ^ 30 = 1 ∧ w.toNat / 2 ^ 24 % 2 ^ 6 = 0) ∨
    (w.toNat / 2 ^ 30 = 2 ∧ w.toNat / 2 ^ 15 % 2 ^ 15 = 0 ∧ w.toNat / 2 ^ 12 % 2 ^ 3 < 7 ∧
      w.toNat / 2 ^ 11 % 2 = 0 ∧ 0 < w.toNat / 2 ^ 8 % 2 ^ 3 ∧ w.toNat / 2 ^ 1 % 2 ^ 7 = 0))

/-- 30_encoding.md R79, R81 to R83: the number each output word is, when its count or offset fits 16
bits. -/
def Obligations.OutputWordsAreTheirNumbers : Prop :=
  (∀ (count : Nat) (isRead trunc : Bool) (chip : ChipAddr) (startTime endTime : Time),
    count < 2 ^ 16 → (outWordBits (.header count isRead trunc chip startTime endTime)).toNat =
      count * 2 ^ 16 + isRead.toNat * 2 ^ 15 + trunc.toNat * 2 ^ 14 + chip.toNat) ∧
  (∀ (id : RegId) (value : Byte),
    (outWordBits (.reg id value)).toNat =
      (2 * id.kind.code.toNat + id.port.code.toNat) * 2 ^ 16 + value.toNat) ∧
  (∀ (offset : Nat) (value : Byte), offset < 2 ^ 16 →
    (outWordBits (.unrec offset value)).toNat = 2 ^ 30 + offset * 2 ^ 8 + value.toNat) ∧
  (∀ (name : IoconBit) (pos : BitVec 3) (value : Bool),
    (outWordBits (.bit name pos value)).toNat =
      2 ^ 31 + name.code.toNat * 2 ^ 12 + pos.toNat * 2 ^ 8 + value.toNat)

/-- 41_register_decoder.md R140, R146, R147: the identifier and bit-name codes, that no other code stands for
anything, and which identifiers are the configuration register. -/
def Obligations.IdentifierCodesAreTheTables : Prop :=
  ([RegKind.iodir, .ipol, .gpinten, .defval, .intcon, .iocon, .gppu, .intf, .intcap, .gpio,
      .olat].map fun k => k.code.toNat) = [0, 1, 2, 3, 4, 5, 6, 7, 8, 9, 10] ∧
  (∀ id : RegId, id.code.toNat = 2 * id.kind.code.toNat + (if id.port = .a then 0 else 1) ∧
    RegId.ofCode id.code = some id) ∧
  (∀ c : BitVec 5, RegId.ofCode c = none ↔ 22 ≤ c.toNat) ∧
  ([IoconBit.bank, .mirror, .seqop, .disslw, .haen, .odr, .intpol].map fun nm => nm.code.toNat) =
    [0, 1, 2, 3, 4, 5, 6] ∧
  (∀ nm : IoconBit, IoconBit.ofCode nm.code = some nm) ∧
  (∀ c : BitVec 3, IoconBit.ofCode c = none ↔ c.toNat = 7) ∧
  (∀ id : RegId, isConfig id = true ↔ id.kind = .iocon)

/-- 30_encoding.md R81 to R83: the word of each field on the output port, with the position of a BIT word the
one the layout gives the name, field by field of the layout. -/
def Obligations.FieldWordsCarryTheirField : Prop :=
  (∀ (l : Layout) (id : RegId) (v : Byte), fieldWord l (.reg id v) = .reg id v) ∧
  (∀ (l : Layout) (off : Nat) (v : Byte), fieldWord l (.unrec off v) = .unrec off v) ∧
  (∀ (l : Layout) (x : Bool),
    fieldWord l (.bit .bank x) = .bit .bank l.bank x ∧
    fieldWord l (.bit .mirror x) = .bit .mirror l.mirror x ∧
    fieldWord l (.bit .seqop x) = .bit .seqop l.seqop x ∧
    fieldWord l (.bit .disslw x) = .bit .disslw l.disslw x ∧
    fieldWord l (.bit .haen x) = .bit .haen l.haen x ∧
    fieldWord l (.bit .odr x) = .bit .odr l.odr x ∧
    fieldWord l (.bit .intpol x) = .bit .intpol l.intpol x)

/-- 40_reassembler.md R102, 10_state.md R29: the window is the addresses whose bits 6:3 are 0100, an address
is accepted when acknowledged inside it, and there the bank index is the bits 2:0. -/
def Obligations.WindowAndIndexAreAddressBits : Prop :=
  ∀ a : ChipAddr, (inWindow a = true ↔ a.extractLsb' 3 4 = 0b0100#4) ∧
    (∀ ack, accept ack a = true ↔ ack = true ∧ 0x20 ≤ a.toNat ∧ a.toNat ≤ 0x27) ∧
    (∀ i, bankIndex a = some i ↔ inWindow a = true ∧ i.val = (a.extractLsb' 0 3).toNat)

/-! ## The register maps and the parameters -/

/-- 41_register_decoder.md R143 to R145: a lookup is in the list of the bank mode, and what the default maps
give on every natural-number offset. The maps are PRESUMED, the datasheet's (log 6). -/
def Obligations.DefaultMapsAreTheDatasheetTables : Prop :=
  (∀ (m : RegMap) (off : Byte), mapLookup m false off.toNat = m.bank0.lookup off ∧
    mapLookup m true off.toNat = m.bank1.lookup off) ∧
  (∀ off : Nat, mapLookup defaultRegMap false off =
    if off ≤ 0x15 then RegId.ofCode (BitVec.ofNat 5 off) else none) ∧
  (∀ off : Nat, mapLookup defaultRegMap true off =
    if off ≤ 0x0A then (RegKind.ofCode (BitVec.ofNat 4 off)).map fun k => ⟨k, .a⟩
    else if 0x10 ≤ off ∧ off ≤ 0x1A then
      (RegKind.ofCode (BitVec.ofNat 4 (off - 0x10))).map fun k => ⟨k, .b⟩
    else none)

/-- 41_register_decoder.md R148, R155: the positions of the default layout and of the alternative, and the
default order of a verbose group under each. The layout's default and the order are the spec's own choices
(log 7). -/
def Obligations.LayoutsHaveTheTablesPositionsAndOrder : Prop :=
  ([IoconBit.bank, .mirror, .seqop, .disslw, .odr, .haen, .intpol].map fun nm =>
    (bitPos layoutDoc nm).toNat) = [7, 6, 5, 4, 3, 2, 1] ∧
  ([IoconBit.bank, .mirror, .seqop, .disslw, .haen, .odr, .intpol].map fun nm =>
    (bitPos layoutDatasheet nm).toNat) = [7, 6, 5, 4, 3, 2, 1] ∧
  descendingOrder layoutDoc = [.bank, .mirror, .seqop, .disslw, .odr, .haen, .intpol] ∧
  descendingOrder layoutDatasheet = [.bank, .mirror, .seqop, .disslw, .haen, .odr, .intpol] ∧
  defaultParams.layout = layoutDoc ∧ defaultParams.emitOrder = descendingOrder layoutDoc

/-- 41_register_decoder.md R142, R148, 20_memory.md R52, 00_scope.md R8: the parameter values the step
accepts are those that meet the spec's constraints. That a finite MAX_PAYLOAD above 65282 is accepted is the
model's choice (log 25). -/
def Obligations.AdmissibleParametersMeetTheConstraints : Prop :=
  ∀ p : Params, paramsAdmissible p = true ↔
    (∀ n, p.maxPayload = some n → 1 ≤ n) ∧
    (∃ port, mapLookup p.regMap false 0x0A = some ⟨.iocon, port⟩) ∧
    mapLookup p.regMap true 0x09 = some ⟨.gpio, .a⟩ ∧
    bitPos p.layout .bank = 7 ∧
    (∀ nm, bitPos p.layout nm ≠ 0) ∧
    (∀ nm nm', bitPos p.layout nm = bitPos p.layout nm' → nm = nm') ∧
    p.emitOrder.length = 7 ∧ (∀ nm, nm ∈ p.emitOrder)

/-! ## The decode of a payload -/

/-- 41_register_decoder.md R151 to R153, R155, R156: the fields are, for each value byte in order, those of
its offset `o + k` under the bank mode that the bytes before it left: UNREC of the offset where the map has
none, the BIT fields in IOCON_EMIT_ORDER where it has IOCON and verbose is set, and REG else. -/
def Obligations.EachByteResolvesUnderTheBankBeforeIt : Prop :=
  ∀ (p : Params) (verbose isRead : Bool) (i : Fin 8) (o : Byte) (vs : List Byte) (b : BankTable),
    (decodePayload p verbose isRead i (o :: vs) b).2 =
      (List.range vs.length).flatMap fun k =>
        match vs[k]? with
        | none => []
        | some v =>
          match mapLookup p.regMap
              (bankRead (decodePayload p verbose isRead i (o :: vs.take k) b).1 i)
              (o.toNat + k) with
          | none => [.unrec (o.toNat + k) v]
          | some id =>
            if id.kind = .iocon ∧ verbose = true then
              p.emitOrder.map fun nm => .bit nm (v.getLsbD (bitPos p.layout nm).toNat)
            else [.reg id v]

/-- 41_register_decoder.md R152, R145, R156: no map has an offset above 0xFF, and a value byte whose offset
has passed 0xFF gives exactly the UNREC field of that offset, unwrapped, after the fields of the bytes before
it, with and without verbose expansion; without, its place is its number. -/
def Obligations.OffsetsPastFFAreUnrecognizedUnwrapped : Prop :=
  (∀ (m : RegMap) (bank : Bool) (off : Nat), 0xFF < off → mapLookup m bank off = none) ∧
  (∀ (p : Params) (verbose isRead : Bool) (i : Fin 8) (o : Byte) (vs : List Byte) (b : BankTable)
    (k : Nat) (v : Byte), vs[k]? = some v → 0xFF < o.toNat + k →
      (decodePayload p verbose isRead i (o :: vs.take (k + 1)) b).2 =
        (decodePayload p verbose isRead i (o :: vs.take k) b).2 ++ [.unrec (o.toNat + k) v] ∧
      (decodePayload p false isRead i (o :: vs) b).2[k]? = some (.unrec (o.toNat + k) v))

/-- 41_register_decoder.md R159: the number of fields is the sum of 7 for each value byte that resolves to
IOCON in verbose mode and 1 for each other one; without verbose it is the payload's length less one. -/
def Obligations.FieldCountIsTheSumOverValueBytes : Prop :=
  ∀ (p : Params) (verbose isRead : Bool) (i : Fin 8) (b : BankTable), p.emitOrder.length = 7 →
    (decodePayload p verbose isRead i [] b).2.length = 0 ∧
    (∀ (o : Byte) (vs : List Byte), (decodePayload p verbose isRead i (o :: vs) b).2.length =
      ((List.range vs.length).map fun k =>
        if verbose = true ∧ (mapLookup p.regMap
            (bankRead (decodePayload p verbose isRead i (o :: vs.take k) b).1 i)
            (o.toNat + k)).any isConfig = true
        then 7 else 1).sum) ∧
    (∀ bytes : List Byte, (decodePayload p false isRead i bytes b).2.length = bytes.length - 1)

/-- 41_register_decoder.md R151, R153, R157, 20_memory.md R62: a payload is decoded as its value bytes from
the offset its first byte spells, an empty one not at all, and decoding value bytes in two parts is decoding
the first, then the second from the next offset with the bank table the first left. -/
def Obligations.DecodingSplitsAtAnyByte : Prop :=
  (∀ (p : Params) (verbose isRead : Bool) (i : Fin 8) (b : BankTable),
    decodePayload p verbose isRead i [] b = (b, [])) ∧
  (∀ (p : Params) (verbose isRead : Bool) (i : Fin 8) (o : Byte) (vs : List Byte) (b : BankTable),
    decodePayload p verbose isRead i (o :: vs) b = decodeValues p verbose isRead i o.toNat vs b) ∧
  ∀ (p : Params) (verbose isRead : Bool) (i : Fin 8) (off : Nat) (vs ws : List Byte)
    (b : BankTable),
    decodeValues p verbose isRead i off (vs ++ ws) b =
      ((decodeValues p verbose isRead i (off + vs.length) ws
          (decodeValues p verbose isRead i off vs b).1).1,
        (decodeValues p verbose isRead i off vs b).2 ++
          (decodeValues p verbose isRead i (off + vs.length) ws
            (decodeValues p verbose isRead i off vs b).1).2)

/-- 41_register_decoder.md R154: no read payload changes the bank table, and the verbose option never does
either. -/
def Obligations.ReadsAndVerboseLeaveTheBankTable : Prop :=
  ∀ (p : Params) (verbose isRead : Bool) (i : Fin 8) (bytes : List Byte) (b : BankTable),
    (decodePayload p verbose true i bytes b).1 = b ∧
    (decodePayload p verbose isRead i bytes b).1 = (decodePayload p false isRead i bytes b).1

/-- 41_register_decoder.md R154, R149: after a write payload whose last byte to resolve to IOCON is `v`, the
chip's bank mode is bit 7 of `v`. -/
def Obligations.LastConfigurationWriteDecidesTheBank : Prop :=
  ∀ (p : Params) (verbose : Bool) (i : Fin 8) (off : Nat) (vs ws : List Byte) (v : Byte)
    (b : BankTable),
    (mapLookup p.regMap (bankRead (decodeValues p verbose false i off vs b).1 i)
      (off + vs.length)).any isConfig = true →
    (∀ k, k < ws.length →
      (mapLookup p.regMap (v.getLsbD 7) (off + vs.length + 1 + k)).any isConfig = false) →
    bankRead (decodeValues p verbose false i off (vs ++ v :: ws) b).1 i = v.getLsbD 7

/-- 10_state.md R30: an event changes the bank table only as a STOP that completes a write transaction with
a value byte that resolves to IOCON under the bank mode held before. -/
def Obligations.EventsChangeTheBankOnlyByConfigurationWrites : Prop :=
  ∀ (e : Instr) (s t : State), isEvent e = true → exec e s = .next t → t.bank ≠ s.bank →
    (∃ ts te, e = .stop ts te) ∧ s.rs = .inTxn ∧ s.rd = false ∧
      ∃ (chip : ChipAddr) (i : Fin 8) (o : Byte) (vs : List Byte) (k : Nat),
        s.chip = some chip ∧ bankIndex chip = some i ∧ s.buf = o :: vs ∧ k < vs.length ∧
        (mapLookup s.params.regMap (bankRead s.bank i) (o.toNat + k)).any isConfig = true

/-- 41_register_decoder.md R162: a completed transaction writes the bank bit of its own chip only. -/
def Obligations.OtherChipsKeepTheirBank : Prop :=
  ∀ (ts te : Time) (s t : State) (chip : ChipAddr), s.chip = some chip →
    exec (.stop ts te) s = .next t →
      ∀ j : Fin 8, j.val + 0x20 ≠ chip.toNat → bankRead t.bank j = bankRead s.bank j

/-- 41_register_decoder.md R155: a verbose group is the BIT fields of IOCON_EMIT_ORDER in that order, each
with the bit at the name's position, and under allowed parameters these are one for each of the seven
names. -/
def Obligations.VerboseGroupShowsEachNamedBitOnce : Prop :=
  ∀ (p : Params) (v : Byte),
    verboseFields p v =
      (p.emitOrder.map fun nm => .bit nm (v.getLsbD (bitPos p.layout nm).toNat)) ∧
    (paramsAdmissible p = true →
      (verboseFields p v).Perm (allIoconBits.map fun nm =>
        .bit nm (v.getLsbD (bitPos p.layout nm).toNat)))

/-- 93_implementation_defined.md U1, 41_register_decoder.md R155: two value bytes that differ in bit 0 only
have the same verbose group and the same bank-select bit, leave the same bank table wherever they stand in a
payload, and where they resolve to IOCON in verbose mode they give the same decode. (Without verbose, the
REG field shows the whole byte.) -/
def Obligations.IoconBitZeroReachesNeitherVerboseFieldsNorBank : Prop :=
  ∀ (p : Params) (v w : Byte), layoutAdmissible p.layout = true →
    (∀ k, 1 ≤ k → v.getLsbD k = w.getLsbD k) →
      verboseFields p v = verboseFields p w ∧ bankSel v = bankSel w ∧
      ∀ (isRead : Bool) (i : Fin 8) (off : Nat) (vs ws : List Byte) (b : BankTable),
        (∀ verbose, (decodeValues p verbose isRead i off (vs ++ v :: ws) b).1 =
          (decodeValues p verbose isRead i off (vs ++ w :: ws) b).1) ∧
        ((mapLookup p.regMap (bankRead (decodeValues p true isRead i off vs b).1 i)
            (off + vs.length)).any isConfig = true →
          decodeValues p true isRead i off (vs ++ v :: ws) b =
            decodeValues p true isRead i off (vs ++ w :: ws) b)

/-! ## The output -/

/-- 40_reassembler.md R107: of the events, exactly a STOP in IN_TXN emits. -/
def Obligations.ExactlyStopInTransactionEmits : Prop :=
  ∀ (e : Instr) (s t : State), isEvent e = true → exec e s = .next t →
    (t.output ≠ s.output ↔ s.rs = .inTxn ∧ ∃ ts te, e = .stop ts te)

/-- 30_encoding.md R85, R86, 70_reset_and_hazards.md R241: the words of a record put at the end of the
output are read back as that one record after all the earlier ones, and the header counts the words that
follow it. -/
def Obligations.EmittedWordsReadBackAsTheRecord : Prop :=
  (∀ (l : Layout) (ws : List OutWord) (r : Record),
    recordsOf (ws ++ recordWords l r) = recordsOf ws ++ [r]) ∧
  (∀ (l : Layout) (r : Record), ∃ fields : List OutWord,
    recordWords l r =
      .header fields.length r.isRead r.truncated r.chip r.startTime r.endTime :: fields)

/-- 30_encoding.md R86 with log 10: emitting a record whose words fit their fields is running the output
rows of its words one after another. -/
def Obligations.EmitRunsTheOutputRowsInOrder : Prop :=
  ∀ (s : State) (r : Record), (recordWords s.params.layout r).all wordFits = true →
    execAll ((recordWords s.params.layout r).map wordInstr) s = .next (s.emit r)

/-- 20_memory.md R52: with MAX_PAYLOAD at most 65282 and the default map, every word a STOP emits fits its
16-bit fields. The default map is PRESUMED (log 6). -/
def Obligations.BoundedPayloadsFitTheOutputWords : Prop :=
  ∀ (ts te : Time) (s t : State) (n : Nat), s.Inv → s.params.maxPayload = some n → n ≤ 65282 →
    s.params.regMap = defaultRegMap → s.params.emitOrder.length = 7 →
    exec (.stop ts te) s = .next t →
      ∃ ws, t.output = s.output ++ ws ∧ ws.all wordFits = true

/-- 41_register_decoder.md R161: the digits of a hexadecimal literal spell its number, and are two for a
byte. -/
def Obligations.HexLiteralsReadBack : Prop :=
  (∀ n : Nat, digitsValue 16 (hexDigits n) 0 = some n) ∧
  (∀ v : Byte, (hexDigits v.toNat).length = 2)

/-- 00_scope.md R12: a step on what the host may present adds at most one record to those emitted. -/
def Obligations.AStepEmitsAtMostOneRecord : Prop :=
  ∀ s t : State, s.HostDriven → step s = .next t →
    recordsOf t.output = recordsOf s.output ∨
      ∃ r : Record, recordsOf t.output = recordsOf s.output ++ [r]

/-! ## Invariants and runs -/

/-- 10_state.md R35: the state after RESET, for every configuration and parameter value, meets the
invariant. -/
def Obligations.ResetMeetsTheInvariant : Prop :=
  (∀ (p : Params) (ib vb : Bool), (State.afterReset p ib vb).Inv) ∧ State.reset.Inv ∧
    paramsAdmissible State.reset.params = true

/-- 10_state.md R34: every step keeps the invariant. -/
def Obligations.EveryStepKeepsTheInvariant : Prop :=
  ∀ s t : State, s.Inv → step s = .next t → t.Inv

/-- 60_exceptions.md R200: from a state of the invariant, a run on what the host may present never faults
and is never refused. -/
def Obligations.HostDrivenRunsNeverStop : Prop :=
  ∀ (k : Nat) (s : State), s.Inv → s.HostDriven → paramsAdmissible s.params = true →
    ∃ t, run k s = .next t

/-- 40_reassembler.md R108: in a run on what the host may present, every header emitted names a chip inside
the window. -/
def Obligations.EmittedChipsAreInTheWindow : Prop :=
  ∀ (k : Nat) (s t : State), s.HostDriven → run k s = .next t →
    ∃ ws, t.output = s.output ++ ws ∧ ws.all chipWatched = true

/-- 60_exceptions.md R201, 40_reassembler.md R111: however long the traffic, event words among which no
ADDRESS is acknowledged inside the window open no transaction, buffer nothing, emit nothing and leave the
bank table. -/
def Obligations.FilteredTrafficLeavesNoTrace : Prop :=
  ∀ (k : Nat) (s t : State), s.Inv → s.rs ≠ .inTxn → s.input.all filteredWord = true →
    run k s = .next t →
      t.rs ≠ .inTxn ∧ t.buf = [] ∧ t.bank = s.bank ∧ t.output = s.output

/-- 70_reset_and_hazards.md R235, 40_reassembler.md R106: under the host's ordering duty every record
emitted has `start_time ≤ end_time`. -/
def Obligations.RecordTimesAreOrderedUnderTheDuty : Prop :=
  ∀ (k : Nat) (s t : State) (now : Time), s.HostDriven → (∀ t0, s.t0 = some t0 → t0 ≤ now) →
    chronological now s.input = true → run k s = .next t →
      ∃ ws, t.output = s.output ++ ws ∧ ws.all timesOrdered = true

/-- 30_encoding.md R76: timestamps are only copied. Renaming every timestamp before a run, by any function
that takes values of TIME to values of TIME and no other number there, is renaming it after. -/
def Obligations.TimestampsAreOnlyCopied : Prop :=
  ∀ (f : Time → Time) (k : Nat) (s : State),
    (∀ t, timeFits s.params.timeWidth (f t) = timeFits s.params.timeWidth t) →
      run k (s.rename f) = mapNext (State.rename f) (run k s)

/-- 00_scope.md R13, 30_encoding.md R76, for every value of the parameter TIME: a step keeps the start time
held, and every timestamp that crosses the output port, of TIME. TIME is the numbers below 2^TIME_W, or all
the naturals (the model's choice, log 2). -/
def Obligations.TimestampsHeldAndEmittedAreOfTime : Prop :=
  (∀ t : Time, timeFits none t = true ∧ ∀ n, timeFits (some n) t = true ↔ t < 2 ^ n) ∧
  (∀ s t : State, s.TimesOfTime → step s = .next t → t.TimesOfTime) ∧
  (∀ (p : Params) (ib vb : Bool), (State.afterReset p ib vb).TimesOfTime)

/-- 10_state.md R21, 30_encoding.md R86: what has crossed the output port is never read again. -/
def Obligations.EarlierOutputIsNeverRead : Prop :=
  ∀ (o : List OutWord) (k : Nat) (s : State),
    run k (s.withEarlierOutput o) = mapNext (State.withEarlierOutput o) (run k s)

/-- 40_reassembler.md R103 to R106, 41_register_decoder.md R151, R158, 20_memory.md R52: from IDLE, a START,
an ADDRESS acknowledged inside the window, any DATA bytes and a STOP leave IDLE and the bank table of the
decode of those bytes, cut at MAX_PAYLOAD, and emit the header and the field words of that decode. -/
def Obligations.AWholeAttemptEmitsItsDecodedPayload : Prop :=
  ∀ (s : State) (startTs startTe : Time) (read : Bool) (addr : ChipAddr) (addrTs addrTe : Time)
    (bytes : List (Byte × Time × Time)) (stopTs stopTe : Time) (rest : List PortWord) (i : Fin 8)
    (kept : List Byte) (cut : Bool),
    paramsAdmissible s.params = true → s.rs = .idle → i.val + 0x20 = addr.toNat →
    s.input = attemptWords startTs startTe read addr addrTs addrTe bytes stopTs stopTe ++ rest →
    (attemptWords startTs startTe read addr addrTs addrTe bytes stopTs stopTe).all
      (timesFit s.params.timeWidth) = true →
    (s.params.maxPayload = none → kept = (bytes.map fun b => b.1) ∧ cut = false) →
    (∀ n, s.params.maxPayload = some n →
      kept = (bytes.map fun b => b.1).take n ∧ cut = decide (n < bytes.length)) →
      ∃ t, run (bytes.length + 3) s = .next t ∧ t.TransientCleared ∧
        t.bank = (decodePayload s.params s.verbose read i kept s.bank).1 ∧
        t.output = s.output ++
          .header (decodePayload s.params s.verbose read i kept s.bank).2.length read cut addr
            startTs stopTe ::
          (decodePayload s.params s.verbose read i kept s.bank).2.map (fieldWord s.params.layout) ∧
        t.input = rest ∧ t.initBank = s.initBank ∧ t.verbose = s.verbose ∧ t.params = s.params
end

