-- ==== Sys2Proof/Laws/State.lean ====
section
/-! SUPPORT. One lemma for each field under each update of State, so that no later proof unfolds a record
update. -/

namespace Sys2Proof.Machine

variable (s : State)

/-! ## resetToIdle -/

@[simp] theorem State.resetToIdle_rs : s.resetToIdle.rs = .idle := rfl
@[simp] theorem State.resetToIdle_t0 : s.resetToIdle.t0 = none := rfl
@[simp] theorem State.resetToIdle_chip : s.resetToIdle.chip = none := rfl
@[simp] theorem State.resetToIdle_rd : s.resetToIdle.rd = false := rfl
@[simp] theorem State.resetToIdle_buf : s.resetToIdle.buf = [] := rfl
@[simp] theorem State.resetToIdle_trunc : s.resetToIdle.trunc = false := rfl
@[simp] theorem State.resetToIdle_bank : s.resetToIdle.bank = s.bank := rfl
@[simp] theorem State.resetToIdle_initBank : s.resetToIdle.initBank = s.initBank := rfl
@[simp] theorem State.resetToIdle_verbose : s.resetToIdle.verbose = s.verbose := rfl
@[simp] theorem State.resetToIdle_params : s.resetToIdle.params = s.params := rfl
@[simp] theorem State.resetToIdle_input : s.resetToIdle.input = s.input := rfl
@[simp] theorem State.resetToIdle_output : s.resetToIdle.output = s.output := rfl

/-! ## beginAttempt -/

@[simp] theorem State.beginAttempt_rs (ts : Time) : (s.beginAttempt ts).rs = .sawStart := rfl
@[simp] theorem State.beginAttempt_t0 (ts : Time) : (s.beginAttempt ts).t0 = some ts := rfl
@[simp] theorem State.beginAttempt_chip (ts : Time) : (s.beginAttempt ts).chip = none := rfl
@[simp] theorem State.beginAttempt_rd (ts : Time) : (s.beginAttempt ts).rd = false := rfl
@[simp] theorem State.beginAttempt_buf (ts : Time) : (s.beginAttempt ts).buf = [] := rfl
@[simp] theorem State.beginAttempt_trunc (ts : Time) : (s.beginAttempt ts).trunc = false := rfl
@[simp] theorem State.beginAttempt_bank (ts : Time) : (s.beginAttempt ts).bank = s.bank := rfl
@[simp] theorem State.beginAttempt_initBank (ts : Time) : (s.beginAttempt ts).initBank = s.initBank := rfl
@[simp] theorem State.beginAttempt_verbose (ts : Time) : (s.beginAttempt ts).verbose = s.verbose := rfl
@[simp] theorem State.beginAttempt_params (ts : Time) : (s.beginAttempt ts).params = s.params := rfl
@[simp] theorem State.beginAttempt_input (ts : Time) : (s.beginAttempt ts).input = s.input := rfl
@[simp] theorem State.beginAttempt_output (ts : Time) : (s.beginAttempt ts).output = s.output := rfl

/-! ## openTxn -/

@[simp] theorem State.openTxn_rs (read : Bool) (addr : ChipAddr) : (s.openTxn read addr).rs = .inTxn := rfl
@[simp] theorem State.openTxn_t0 (read : Bool) (addr : ChipAddr) : (s.openTxn read addr).t0 = s.t0 := rfl
@[simp] theorem State.openTxn_chip (read : Bool) (addr : ChipAddr) : (s.openTxn read addr).chip = some addr := rfl
@[simp] theorem State.openTxn_rd (read : Bool) (addr : ChipAddr) : (s.openTxn read addr).rd = accumulateDirection s.rd read := rfl
@[simp] theorem State.openTxn_buf (read : Bool) (addr : ChipAddr) : (s.openTxn read addr).buf = [] := rfl
@[simp] theorem State.openTxn_trunc (read : Bool) (addr : ChipAddr) : (s.openTxn read addr).trunc = false := rfl
@[simp] theorem State.openTxn_bank (read : Bool) (addr : ChipAddr) : (s.openTxn read addr).bank = s.bank := rfl
@[simp] theorem State.openTxn_initBank (read : Bool) (addr : ChipAddr) : (s.openTxn read addr).initBank = s.initBank := rfl
@[simp] theorem State.openTxn_verbose (read : Bool) (addr : ChipAddr) : (s.openTxn read addr).verbose = s.verbose := rfl
@[simp] theorem State.openTxn_params (read : Bool) (addr : ChipAddr) : (s.openTxn read addr).params = s.params := rfl
@[simp] theorem State.openTxn_input (read : Bool) (addr : ChipAddr) : (s.openTxn read addr).input = s.input := rfl
@[simp] theorem State.openTxn_output (read : Bool) (addr : ChipAddr) : (s.openTxn read addr).output = s.output := rfl

/-! ## bufAppend -/

@[simp] theorem State.bufAppend_rs (b : Byte) : (s.bufAppend b).rs = s.rs := rfl
@[simp] theorem State.bufAppend_t0 (b : Byte) : (s.bufAppend b).t0 = s.t0 := rfl
@[simp] theorem State.bufAppend_chip (b : Byte) : (s.bufAppend b).chip = s.chip := rfl
@[simp] theorem State.bufAppend_rd (b : Byte) : (s.bufAppend b).rd = s.rd := rfl
@[simp] theorem State.bufAppend_buf (b : Byte) : (s.bufAppend b).buf = s.buf ++ [b] := rfl
@[simp] theorem State.bufAppend_trunc (b : Byte) : (s.bufAppend b).trunc = s.trunc := rfl
@[simp] theorem State.bufAppend_bank (b : Byte) : (s.bufAppend b).bank = s.bank := rfl
@[simp] theorem State.bufAppend_initBank (b : Byte) : (s.bufAppend b).initBank = s.initBank := rfl
@[simp] theorem State.bufAppend_verbose (b : Byte) : (s.bufAppend b).verbose = s.verbose := rfl
@[simp] theorem State.bufAppend_params (b : Byte) : (s.bufAppend b).params = s.params := rfl
@[simp] theorem State.bufAppend_input (b : Byte) : (s.bufAppend b).input = s.input := rfl
@[simp] theorem State.bufAppend_output (b : Byte) : (s.bufAppend b).output = s.output := rfl

/-! ## setTrunc -/

@[simp] theorem State.setTrunc_rs : s.setTrunc.rs = s.rs := rfl
@[simp] theorem State.setTrunc_t0 : s.setTrunc.t0 = s.t0 := rfl
@[simp] theorem State.setTrunc_chip : s.setTrunc.chip = s.chip := rfl
@[simp] theorem State.setTrunc_rd : s.setTrunc.rd = s.rd := rfl
@[simp] theorem State.setTrunc_buf : s.setTrunc.buf = s.buf := rfl
@[simp] theorem State.setTrunc_trunc : s.setTrunc.trunc = true := rfl
@[simp] theorem State.setTrunc_bank : s.setTrunc.bank = s.bank := rfl
@[simp] theorem State.setTrunc_initBank : s.setTrunc.initBank = s.initBank := rfl
@[simp] theorem State.setTrunc_verbose : s.setTrunc.verbose = s.verbose := rfl
@[simp] theorem State.setTrunc_params : s.setTrunc.params = s.params := rfl
@[simp] theorem State.setTrunc_input : s.setTrunc.input = s.input := rfl
@[simp] theorem State.setTrunc_output : s.setTrunc.output = s.output := rfl

/-! ## withBank -/

@[simp] theorem State.withBank_rs (b : BankTable) : (s.withBank b).rs = s.rs := rfl
@[simp] theorem State.withBank_t0 (b : BankTable) : (s.withBank b).t0 = s.t0 := rfl
@[simp] theorem State.withBank_chip (b : BankTable) : (s.withBank b).chip = s.chip := rfl
@[simp] theorem State.withBank_rd (b : BankTable) : (s.withBank b).rd = s.rd := rfl
@[simp] theorem State.withBank_buf (b : BankTable) : (s.withBank b).buf = s.buf := rfl
@[simp] theorem State.withBank_trunc (b : BankTable) : (s.withBank b).trunc = s.trunc := rfl
@[simp] theorem State.withBank_bank (b : BankTable) : (s.withBank b).bank = b := rfl
@[simp] theorem State.withBank_initBank (b : BankTable) : (s.withBank b).initBank = s.initBank := rfl
@[simp] theorem State.withBank_verbose (b : BankTable) : (s.withBank b).verbose = s.verbose := rfl
@[simp] theorem State.withBank_params (b : BankTable) : (s.withBank b).params = s.params := rfl
@[simp] theorem State.withBank_input (b : BankTable) : (s.withBank b).input = s.input := rfl
@[simp] theorem State.withBank_output (b : BankTable) : (s.withBank b).output = s.output := rfl

/-! ## construct -/

@[simp] theorem State.construct_rs (ib vb : Bool) : (s.construct ib vb).rs = .idle := rfl
@[simp] theorem State.construct_t0 (ib vb : Bool) : (s.construct ib vb).t0 = none := rfl
@[simp] theorem State.construct_chip (ib vb : Bool) : (s.construct ib vb).chip = none := rfl
@[simp] theorem State.construct_rd (ib vb : Bool) : (s.construct ib vb).rd = false := rfl
@[simp] theorem State.construct_buf (ib vb : Bool) : (s.construct ib vb).buf = [] := rfl
@[simp] theorem State.construct_trunc (ib vb : Bool) : (s.construct ib vb).trunc = false := rfl
@[simp] theorem State.construct_bank (ib vb : Bool) : (s.construct ib vb).bank = Vector.replicate 8 ib := rfl
@[simp] theorem State.construct_initBank (ib vb : Bool) : (s.construct ib vb).initBank = ib := rfl
@[simp] theorem State.construct_verbose (ib vb : Bool) : (s.construct ib vb).verbose = vb := rfl
@[simp] theorem State.construct_params (ib vb : Bool) : (s.construct ib vb).params = s.params := rfl
@[simp] theorem State.construct_input (ib vb : Bool) : (s.construct ib vb).input = s.input := rfl
@[simp] theorem State.construct_output (ib vb : Bool) : (s.construct ib vb).output = s.output := rfl

/-! ## putWord -/

@[simp] theorem State.putWord_rs (w : OutWord) : (s.putWord w).rs = s.rs := rfl
@[simp] theorem State.putWord_t0 (w : OutWord) : (s.putWord w).t0 = s.t0 := rfl
@[simp] theorem State.putWord_chip (w : OutWord) : (s.putWord w).chip = s.chip := rfl
@[simp] theorem State.putWord_rd (w : OutWord) : (s.putWord w).rd = s.rd := rfl
@[simp] theorem State.putWord_buf (w : OutWord) : (s.putWord w).buf = s.buf := rfl
@[simp] theorem State.putWord_trunc (w : OutWord) : (s.putWord w).trunc = s.trunc := rfl
@[simp] theorem State.putWord_bank (w : OutWord) : (s.putWord w).bank = s.bank := rfl
@[simp] theorem State.putWord_initBank (w : OutWord) : (s.putWord w).initBank = s.initBank := rfl
@[simp] theorem State.putWord_verbose (w : OutWord) : (s.putWord w).verbose = s.verbose := rfl
@[simp] theorem State.putWord_params (w : OutWord) : (s.putWord w).params = s.params := rfl
@[simp] theorem State.putWord_input (w : OutWord) : (s.putWord w).input = s.input := rfl
@[simp] theorem State.putWord_output (w : OutWord) : (s.putWord w).output = s.output ++ [w] := rfl

/-! ## present -/

@[simp] theorem State.present_rs (w : PortWord) : (s.present w).rs = s.rs := rfl
@[simp] theorem State.present_t0 (w : PortWord) : (s.present w).t0 = s.t0 := rfl
@[simp] theorem State.present_chip (w : PortWord) : (s.present w).chip = s.chip := rfl
@[simp] theorem State.present_rd (w : PortWord) : (s.present w).rd = s.rd := rfl
@[simp] theorem State.present_buf (w : PortWord) : (s.present w).buf = s.buf := rfl
@[simp] theorem State.present_trunc (w : PortWord) : (s.present w).trunc = s.trunc := rfl
@[simp] theorem State.present_bank (w : PortWord) : (s.present w).bank = s.bank := rfl
@[simp] theorem State.present_initBank (w : PortWord) : (s.present w).initBank = s.initBank := rfl
@[simp] theorem State.present_verbose (w : PortWord) : (s.present w).verbose = s.verbose := rfl
@[simp] theorem State.present_params (w : PortWord) : (s.present w).params = s.params := rfl
@[simp] theorem State.present_input (w : PortWord) : (s.present w).input = w :: s.input := rfl
@[simp] theorem State.present_output (w : PortWord) : (s.present w).output = s.output := rfl

end Sys2Proof.Machine
end

