-- ==== Sys2Proof/Laws/Ops.lean ====
section
/-! SUPPORT. What each shared operation does, said once: the window and the bank table, the buffer, the
output port, the input. -/

namespace Sys2Proof.Machine

/-! ## The window and the bank table -/

theorem inWindow_eq_true_iff (a : ChipAddr) :
    inWindow a = true ↔ 0x20 ≤ a.toNat ∧ a.toNat ≤ 0x27 := by
  rw [inWindow, Bool.and_eq_true, decide_eq_true_eq, decide_eq_true_eq]
  simp only [Config.winBase, Config.winSize]
  omega

theorem accept_eq_true_iff (ack : Bool) (a : ChipAddr) :
    accept ack a = true ↔ ack = true ∧ inWindow a = true := by
  simp [accept]

theorem bankIndex_of_inWindow {a : ChipAddr} (h : inWindow a = true) :
    ∃ i, bankIndex a = some i ∧ i.val + 0x20 = a.toNat := by
  refine ⟨Fin.ofNat 8 (a.toNat - Config.winBase), by simp [bankIndex, h], ?_⟩
  have hw := (inWindow_eq_true_iff a).mp h
  simp only [Fin.ofNat, Config.winBase]
  omega

theorem inWindow_of_bankIndex {a : ChipAddr} {i : Fin 8} (h : bankIndex a = some i) :
    inWindow a = true := by
  by_contra hn
  simp [bankIndex, hn] at h

@[simp] theorem bankRead_bankWrite_same (b : BankTable) (i : Fin 8) (v : Bool) :
    bankRead (bankWrite b i v) i = v := by
  simp [bankRead, bankWrite]

theorem bankRead_bankWrite_other (b : BankTable) {i j : Fin 8} (v : Bool) (h : j ≠ i) :
    bankRead (bankWrite b i v) j = bankRead b j := by
  have hne : i.val ≠ j.val := fun he => h (Fin.ext he.symm)
  simp [bankRead, bankWrite, Vector.getElem_set_ne, hne]

@[simp] theorem bankRead_replicate (v : Bool) (i : Fin 8) :
    bankRead (Vector.replicate 8 v) i = v := by
  simp [bankRead]

/-! ## The buffer -/

@[simp] theorem bufFull_none (buf : List Byte) : bufFull none buf = false := rfl

@[simp] theorem bufFull_some (n : Nat) (buf : List Byte) :
    bufFull (some n) buf = decide (n ≤ buf.length) := rfl

theorem appendData_of_room {s : State} (b : Byte) (h : bufFull s.params.maxPayload s.buf = false) :
    s.appendData b = s.bufAppend b := by
  simp [State.appendData, h]

theorem appendData_of_full {s : State} (b : Byte) (h : bufFull s.params.maxPayload s.buf = true) :
    s.appendData b = s.setTrunc := by
  simp [State.appendData, h]

theorem appendData_cases (s : State) (b : Byte) :
    (bufFull s.params.maxPayload s.buf = false ∧ s.appendData b = s.bufAppend b) ∨
    (bufFull s.params.maxPayload s.buf = true ∧ s.appendData b = s.setTrunc) := by
  cases h : bufFull s.params.maxPayload s.buf
  · exact .inl ⟨rfl, appendData_of_room b h⟩
  · exact .inr ⟨rfl, appendData_of_full b h⟩

/-! ## The address phase -/

theorem addressPhase_of_accept {s : State} (read : Bool) {addr : ChipAddr} {ack : Bool}
    (h : accept ack addr = true) : s.addressPhase read addr ack = s.openTxn read addr := by
  simp [State.addressPhase, h]

theorem addressPhase_of_reject {s : State} (read : Bool) {addr : ChipAddr} {ack : Bool}
    (h : accept ack addr = false) : s.addressPhase read addr ack = s.resetToIdle := by
  simp [State.addressPhase, h]

/-! ## The output port -/

theorem foldl_putWord (ws : List OutWord) (s : State) :
    ws.foldl State.putWord s = { s with output := s.output ++ ws } := by
  induction ws generalizing s with
  | nil => simp
  | cons w ws ih => simp [List.foldl_cons, ih, State.putWord]

theorem emit_eq (s : State) (r : Record) :
    s.emit r = { s with output := s.output ++ recordWords s.params.layout r } :=
  foldl_putWord _ _

theorem recordWords_eq (l : Layout) (r : Record) :
    recordWords l r =
      .header r.fields.length r.isRead r.truncated r.chip r.startTime r.endTime ::
        r.fields.map (fieldWord l) := rfl

@[simp] theorem wordField_fieldWord (l : Layout) (f : Field) : wordField (fieldWord l f) = some f := by
  cases f <;> rfl

theorem narrow16_of_lt (free : Nat → BitVec 16) {n : Nat} (h : n < 2 ^ 16) :
    narrow16 free n = BitVec.ofNat 16 n := by
  simp only [narrow16, h, if_true]

/-- What a completed transaction leaves: the transient state of IDLE, the bank table of its decode, and
its record's words at the end of the output. -/
theorem finishTxn_eq (s : State) (startTime te : Time) (chip : ChipAddr) (i : Fin 8) :
    s.finishTxn startTime te chip i =
      { s.resetToIdle with
        bank := (decodeTxn s.params s.verbose i (s.completedTxn startTime te chip) s.bank).1
        output := s.output ++ recordWords s.params.layout
          (decodeTxn s.params s.verbose i (s.completedTxn startTime te chip) s.bank).2 } := by
  simp [State.finishTxn, emit_eq, State.withBank]

/-! ## The input -/

@[simp] theorem takeInput_of_nil {s : State} (h : s.input = []) : s.takeInput = none := by
  simp [State.takeInput, h]

@[simp] theorem takeInput_of_cons {s : State} {w : PortWord} {rest : List PortWord}
    (h : s.input = w :: rest) : s.takeInput = some (w, { s with input := rest }) := by
  simp [State.takeInput, h]

theorem readWord_of_decode {p : Params} {w : PortWord} {i : Instr}
    (ht : timesFit p.timeWidth w = true) (hd : decode w = .ok i) : readWord p w = .ok i := by
  simp [readWord, ht, hd]

/-- Everything the reading of a presented word can be. -/
theorem readWord_cases (p : Params) (w : PortWord) :
    (∃ i, timesFit p.timeWidth w = true ∧ decode w = .ok i ∧ readWord p w = .ok i) ∨
    (∃ e, timesFit p.timeWidth w = true ∧ decode w = .error e ∧
      readWord p w = .error (.reservedWord e)) ∨
    (timesFit p.timeWidth w = false ∧ readWord p w = .error .timestampOutsideTime) := by
  cases ht : timesFit p.timeWidth w with
  | false => exact .inr (.inr ⟨rfl, by simp [readWord, ht]⟩)
  | true =>
    cases hd : decode w with
    | ok i => exact .inl ⟨i, rfl, rfl, readWord_of_decode ht hd⟩
    | error e => exact .inr (.inl ⟨e, rfl, rfl, by simp [readWord, ht, hd]⟩)

@[simp] theorem timeFits_none (t : Nat) : timeFits none t = true := rfl

@[simp] theorem timeFits_zero (timeWidth : Option Nat) : timeFits timeWidth 0 = true := by
  cases timeWidth <;> simp [timeFits]

theorem takeInput_present (s : State) (w : PortWord) : (s.present w).takeInput = some (w, s) := rfl

end Sys2Proof.Machine
end

