-- ==== Sys2Proof/Laws/RegisterDecoder.lean ====
section
/-! SUPPORT. The one-step lemmas of the Register Decoder. -/

namespace Sys2Proof.Machine

theorem mapLookup_of_gt (m : RegMap) (bank : Bool) {off : Nat} (h : 0xFF < off) :
    mapLookup m bank off = none := by
  simp [mapLookup, Nat.not_le.mpr h]

@[simp] theorem decodeValues_nil (p : Params) (verbose isRead : Bool) (i : Fin 8) (off : Nat)
    (b : BankTable) : decodeValues p verbose isRead i off [] b = (b, []) := rfl

theorem decodeValues_cons (p : Params) (verbose isRead : Bool) (i : Fin 8) (off : Nat) (v : Byte)
    (vs : List Byte) (b : BankTable) :
    decodeValues p verbose isRead i off (v :: vs) b =
      ((decodeValues p verbose isRead i (off + 1) vs
          (valueBank isRead i v b (mapLookup p.regMap (bankRead b i) off))).1,
        valueFields p verbose off v (mapLookup p.regMap (bankRead b i) off) ++
          (decodeValues p verbose isRead i (off + 1) vs
            (valueBank isRead i v b (mapLookup p.regMap (bankRead b i) off))).2) := rfl

@[simp] theorem decodePayload_nil (p : Params) (verbose isRead : Bool) (i : Fin 8) (b : BankTable) :
    decodePayload p verbose isRead i [] b = (b, []) := rfl

@[simp] theorem decodePayload_cons (p : Params) (verbose isRead : Bool) (i : Fin 8) (o : Byte)
    (vs : List Byte) (b : BankTable) :
    decodePayload p verbose isRead i (o :: vs) b =
      decodeValues p verbose isRead i o.toNat vs b := rfl

/-- One value byte leaves the bank table alone, or writes its bank-select bit. -/
theorem valueBank_cases (isRead : Bool) (i : Fin 8) (v : Byte) (b : BankTable) (id : Option RegId) :
    valueBank isRead i v b id = b ∨
      (isRead = false ∧ id.any isConfig = true ∧ valueBank isRead i v b id = bankWrite b i (bankSel v)) := by
  cases id with
  | none => exact .inl rfl
  | some r => cases isRead <;> cases h : isConfig r <;> simp [valueBank, h]

@[simp] theorem valueBank_read (i : Fin 8) (v : Byte) (b : BankTable) (id : Option RegId) :
    valueBank true i v b id = b := by
  cases id <;> simp [valueBank]

theorem valueFields_plain (p : Params) (off : Nat) (v : Byte) (id : Option RegId) :
    valueFields p false off v id =
      [match id with
       | none => .unrec off v
       | some r => .reg r v] := by
  cases id <;> simp [valueFields]

@[simp] theorem length_verboseFields (p : Params) (v : Byte) :
    (verboseFields p v).length = p.emitOrder.length := by
  simp [verboseFields]

@[simp] theorem recordOf_fields (txn : Txn) (fs : List Field) : (recordOf txn fs).fields = fs := rfl

@[simp] theorem recordOf_chip (txn : Txn) (fs : List Field) : (recordOf txn fs).chip = txn.chip := rfl

@[simp] theorem recordOf_startTime (txn : Txn) (fs : List Field) :
    (recordOf txn fs).startTime = txn.startTime := rfl

@[simp] theorem recordOf_endTime (txn : Txn) (fs : List Field) :
    (recordOf txn fs).endTime = txn.endTime := rfl

@[simp] theorem recordOf_isRead (txn : Txn) (fs : List Field) :
    (recordOf txn fs).isRead = txn.isRead := rfl

@[simp] theorem recordOf_truncated (txn : Txn) (fs : List Field) :
    (recordOf txn fs).truncated = txn.truncated := rfl

end Sys2Proof.Machine
end

