-- ==== Sys2Proof/Laws/Step.lean ====
section
/-! SUPPORT. Everything an operation and a step can do: one inversion lemma for each meaning that has
cases, one for exec's frame, one for step. Claims about runs are case analyses over these. -/

namespace Sys2Proof.Machine

variable {s t : State}

theorem exec_start_cases {ts te : Time} (h : exec (.start ts te) s = .next t) :
    (s.rs = .sawStart ∧ t = s.resetToIdle) ∨ (s.rs ≠ .sawStart ∧ t = s.beginAttempt ts) := by
  cases hrs : s.rs <;> simp_all [exec, execStart]

theorem exec_address_cases {read : Bool} {addr : ChipAddr} {ack : Bool} {ts te : Time}
    (h : exec (.address read addr ack ts te) s = .next t) :
    (s.rs = .idle ∧ t = s) ∨
    (s.rs = .inTxn ∧ s.params.addrInTxn = .ignore ∧ t = s) ∨
    (s.rs ≠ .idle ∧ accept ack addr = true ∧ t = s.openTxn read addr) ∨
    (s.rs ≠ .idle ∧ accept ack addr = false ∧ t = s.resetToIdle) := by
  cases hrs : s.rs <;> cases hp : s.params.addrInTxn <;> cases ha : accept ack addr <;>
    simp_all [exec, execAddress, State.addressPhase]

theorem exec_data_cases {byte : Byte} {ts te : Time} (h : exec (.data byte ts te) s = .next t) :
    (s.rs = .idle ∧ t = s) ∨
    (s.rs = .sawStart ∧ t = s.resetToIdle) ∨
    (s.rs = .inTxn ∧ bufFull s.params.maxPayload s.buf = false ∧ t = s.bufAppend byte) ∨
    (s.rs = .inTxn ∧ bufFull s.params.maxPayload s.buf = true ∧ t = s.setTrunc) := by
  cases hrs : s.rs
  · simp_all [exec, execData]
  · simp_all [exec, execData]
  · obtain ⟨hf, he⟩ | ⟨hf, he⟩ := appendData_cases s byte <;> simp_all [exec, execData]

theorem exec_stop_cases {ts te : Time} (h : exec (.stop ts te) s = .next t) :
    (s.rs = .idle ∧ t = s) ∨
    (s.rs = .sawStart ∧ t = s.resetToIdle) ∨
    (s.rs = .inTxn ∧ ∃ startTime chip i, s.t0 = some startTime ∧ s.chip = some chip ∧
      bankIndex chip = some i ∧ t = s.finishTxn startTime te chip i) := by
  cases hrs : s.rs
  · simp_all [exec, execStop]
  · simp_all [exec, execStop]
  · cases ht : s.t0 with
    | none => simp [exec, execStop, hrs, ht] at h
    | some startTime =>
      cases hc : s.chip with
      | none => simp [exec, execStop, hrs, ht, hc] at h
      | some chip =>
        cases hi : bankIndex chip with
        | none => simp [exec, execStop, hrs, ht, hc, hi] at h
        | some i =>
          simp [exec, execStop, hrs, ht, hc, hi] at h
          exact .inr (.inr ⟨rfl, startTime, chip, i, rfl, rfl, hi, h.symm⟩)

/-- No operation writes the parameters or the pending input, and only ever adds to the output. -/
theorem exec_keeps_model_fields {i : Instr} (h : exec i s = .next t) :
    t.params = s.params ∧ t.input = s.input ∧ ∃ ws, t.output = s.output ++ ws := by
  cases i with
  | start ts te => obtain ⟨-, rfl⟩ | ⟨-, rfl⟩ := exec_start_cases h <;> simp
  | address read addr ack ts te =>
    obtain ⟨-, rfl⟩ | ⟨-, -, rfl⟩ | ⟨-, -, rfl⟩ | ⟨-, -, rfl⟩ := exec_address_cases h <;> simp
  | data byte ts te =>
    obtain ⟨-, rfl⟩ | ⟨-, rfl⟩ | ⟨-, -, rfl⟩ | ⟨-, -, rfl⟩ := exec_data_cases h <;> simp
  | stop ts te =>
    obtain ⟨-, rfl⟩ | ⟨-, rfl⟩ | ⟨-, _, _, _, -, -, -, rfl⟩ := exec_stop_cases h
    · simp
    · simp
    · simp [finishTxn_eq]
  | reset ib vb =>
    obtain rfl : s.construct ib vb = t := by simpa [exec, execReset] using h
    simp
  | recordHeader count isRead trunc chip startTime endTime =>
    obtain rfl : s.putWord _ = t := by simpa [exec, execRecordHeader] using h
    simp
  | fieldReg id value =>
    obtain rfl : s.putWord _ = t := by simpa [exec, execFieldReg] using h
    simp
  | fieldUnrec offset value =>
    obtain rfl : s.putWord _ = t := by simpa [exec, execFieldUnrec] using h
    simp
  | fieldBit name pos val =>
    obtain rfl : s.putWord _ = t := by simpa [exec, execFieldBit] using h
    simp

/-- Everything a step that answers a next state can be: nothing was pending, or the word presented first
was taken, its timestamps of TIME, decoded and run. -/
theorem step_cases (h : step s = .next t) :
    paramsAdmissible s.params = true ∧
      ((s.input = [] ∧ t = s) ∨
       ∃ w rest i, s.input = w :: rest ∧ timesFit s.params.timeWidth w = true ∧ decode w = .ok i ∧
         exec i { s with input := rest } = .next t) := by
  cases hp : paramsAdmissible s.params with
  | false => simp [step, hp] at h
  | true =>
    refine ⟨rfl, ?_⟩
    cases hin : s.input with
    | nil =>
      simp [step, hp, takeInput_of_nil hin] at h
      exact .inl ⟨rfl, h.symm⟩
    | cons w rest =>
      obtain ⟨i, ht, hd, hr⟩ | ⟨e, -, -, hr⟩ | ⟨-, hr⟩ := readWord_cases s.params w <;>
        simp [step, hp, takeInput_of_cons hin, hr] at h
      exact .inr ⟨w, rest, i, rfl, ht, hd, h⟩

end Sys2Proof.Machine
end

