-- ==== Sys2Proof/Laws/PerInstr.lean ====
section
/-! SUPPORT. Claims about every operation as a term, one lemma for each constructor. Family MatchesRow: the
encoder's word has the fixed bits of the operation's row in spec/opcode_table.json. -/

namespace Sys2Proof.Laws.MatchesRow

/-- The mask of the row (spec/opcode_table.json); RESET has none. -/
def rowMask : Instr → Nat
  | .start _ _ => 0xC00
  | .address _ _ _ _ _ => 0xC00
  | .data _ _ _ => 0xC00
  | .stop _ _ => 0xC00
  | .reset _ _ => 0
  | .recordHeader _ _ _ _ _ _ => 0x00003F80
  | .fieldReg _ _ => 0xFFE0FF00
  | .fieldUnrec _ _ => 0xFF000000
  | .fieldBit _ _ _ => 0xFFFF88FE

/-- The match of the row (spec/opcode_table.json); RESET has none. -/
def rowMatch : Instr → Nat
  | .start _ _ => 0x000
  | .address _ _ _ _ _ => 0x400
  | .data _ _ _ => 0x800
  | .stop _ _ => 0xC00
  | .reset _ _ => 0
  | .recordHeader _ _ _ _ _ _ => 0x00000000
  | .fieldReg _ _ => 0x00000000
  | .fieldUnrec _ _ => 0x40000000
  | .fieldBit _ _ _ => 0x80000000

/-- A word of a format has the given fixed bits; RESET is no word. -/
def HasFixedBits (mask pattern : Nat) : PortWord → Prop
  | .evw w _ _ => w &&& BitVec.ofNat 12 mask = BitVec.ofNat 12 pattern
  | .reset _ _ => True
  | .hw w _ _ => w &&& BitVec.ofNat 32 mask = BitVec.ofNat 32 pattern
  | .fw w => w &&& BitVec.ofNat 32 mask = BitVec.ofNat 32 pattern

/-- The encoder's word matches the operation's row. -/
def Statement (i : Instr) : Prop := HasFixedBits (rowMask i) (rowMatch i) (encode i)

/-- A masked word is a pattern when every bit of it under the mask is. -/
theorem fixedBits_of_bits {n : Nat} {w mask pattern : BitVec n}
    (h : ∀ i, i < n → (w.getLsbD i && mask.getLsbD i) = pattern.getLsbD i) :
    w &&& mask = pattern :=
  BitVec.eq_of_getLsbD_eq fun i hi => by rw [BitVec.getLsbD_and]; exact h i hi

theorem start (ts te : Time) : Statement (.start ts te) := by
  show typeBits 0b00 &&& 0xC00 = 0x000
  decide

theorem address (read : Bool) (addr : ChipAddr) (ack : Bool) (ts te : Time) :
    Statement (.address read addr ack ts te) := by
  refine fixedBits_of_bits fun i hi => ?_
  interval_cases i <;> simp [addressBits, typeBits, putField, rowMask, rowMatch]

theorem data (byte : Byte) (ts te : Time) : Statement (.data byte ts te) := by
  refine fixedBits_of_bits fun i hi => ?_
  interval_cases i <;> simp [dataBits, typeBits, putField, rowMask, rowMatch]

theorem stop (ts te : Time) : Statement (.stop ts te) := by
  show typeBits 0b11 &&& 0xC00 = 0xC00
  decide

theorem reset (ib vb : Bool) : Statement (.reset ib vb) := trivial

theorem recordHeader (count : BitVec 16) (isRead trunc : Bool) (chip : ChipAddr)
    (startTime endTime : Time) :
    Statement (.recordHeader count isRead trunc chip startTime endTime) := by
  refine fixedBits_of_bits fun i hi => ?_
  interval_cases i <;> simp [headerBits, putField, rowMask, rowMatch]

theorem fieldReg (id : RegId) (value : Byte) : Statement (.fieldReg id value) := by
  refine fixedBits_of_bits fun i hi => ?_
  interval_cases i <;> simp [fieldRegBits, putField, rowMask, rowMatch]

theorem fieldUnrec (offset : BitVec 16) (value : Byte) : Statement (.fieldUnrec offset value) := by
  refine fixedBits_of_bits fun i hi => ?_
  interval_cases i <;> simp [fieldUnrecBits, putField, rowMask, rowMatch]

theorem fieldBit (name : IoconBit) (pos : BitVec 3) (val : Bool) :
    Statement (.fieldBit name pos val) := by
  refine fixedBits_of_bits fun i hi => ?_
  interval_cases i <;> simp [fieldBitBits, putField, rowMask, rowMatch]

end Sys2Proof.Laws.MatchesRow
end

