-- ==== Sys2Proof/Laws/Run.lean ====
section
/-! SUPPORT. Runs: the induction over steps packaged once, and what the words a host may present decode to. -/

namespace Sys2Proof.Machine

@[simp] theorem run_zero (s : State) : run 0 s = .next s := rfl

theorem run_succ_of_step {k : Nat} {s t : State} (h : step s = .next t) :
    run (k + 1) s = run k t := by
  simp [run, h]

theorem run_succ_cases {k : Nat} {s u : State} (h : run (k + 1) s = .next u) :
    ∃ t, step s = .next t ∧ run k t = .next u := by
  cases hs : step s with
  | next t => exact ⟨t, rfl, by simpa [run, hs] using h⟩
  | fault r => simp [run, hs] at h
  | refused r => simp [run, hs] at h

/-- A property that every step keeps holds at the end of every run from a state that has it. -/
theorem run_keeps {P : State → Prop} (hstep : ∀ s t, P s → step s = .next t → P t) :
    ∀ (k : Nat) (s t : State), P s → run k s = .next t → P t
  | 0, s, t, hs, h => by
    obtain rfl : s = t := by simpa using h
    exact hs
  | k + 1, s, u, hs, h => by
    obtain ⟨t, hst, hrun⟩ := run_succ_cases h
    exact run_keeps hstep k t u (hstep s t hs hst) hrun

/-- A transitive relation that every step from a state with P has, P being kept, holds along every run. -/
theorem run_relates {P : State → Prop} {R : State → State → Prop} (hrefl : ∀ s, R s s)
    (htrans : ∀ s t u, R s t → R t u → R s u)
    (hstep : ∀ s t, P s → step s = .next t → P t ∧ R s t) :
    ∀ (k : Nat) (s t : State), P s → run k s = .next t → P t ∧ R s t
  | 0, s, t, hs, h => by
    obtain rfl : s = t := by simpa using h
    exact ⟨hs, hrefl s⟩
  | k + 1, s, u, hs, h => by
    obtain ⟨t, hst, hrun⟩ := run_succ_cases h
    obtain ⟨ht, hr⟩ := hstep s t hs hst
    obtain ⟨hu, hr'⟩ := run_relates hrefl htrans hstep k t u ht hrun
    exact ⟨hu, htrans _ _ _ hr hr'⟩

@[simp] theorem timesOrdered_header (count : Nat) (isRead trunc : Bool) (chip : ChipAddr)
    (startTime endTime : Time) :
    timesOrdered (.header count isRead trunc chip startTime endTime) = true ↔ startTime ≤ endTime := by
  rw [timesOrdered, decide_eq_true_eq]

@[simp] theorem chipWatched_header (count : Nat) (isRead trunc : Bool) (chip : ChipAddr)
    (startTime endTime : Time) :
    chipWatched (.header count isRead trunc chip startTime endTime) = inWindow chip := rfl

@[simp] theorem wordFits_header (count : Nat) (isRead trunc : Bool) (chip : ChipAddr)
    (startTime endTime : Time) :
    wordFits (.header count isRead trunc chip startTime endTime) = true ↔ count < 2 ^ 16 := by
  rw [wordFits, decide_eq_true_eq]

@[simp] theorem wordFits_unrec (offset : Nat) (value : Byte) :
    wordFits (.unrec offset value) = true ↔ offset < 2 ^ 16 := by
  rw [wordFits, decide_eq_true_eq]

/-- A field word has no times and no chip. -/
@[simp] theorem fieldWord_plain (l : Layout) (f : Field) :
    timesOrdered (fieldWord l f) = true ∧ chipWatched (fieldWord l f) = true := by
  cases f <;> exact ⟨rfl, rfl⟩

/-- The duty at an event word: it starts and ends in order, and the duty goes on from its end. -/
theorem chronological_evw (now : Time) (w : EventWord) (ts te : Time) (ws : List PortWord) :
    chronological now (.evw w ts te :: ws) = true ↔
      now ≤ ts ∧ ts ≤ te ∧ chronological te ws = true := by
  rw [chronological, Bool.and_eq_true, Bool.and_eq_true, decide_eq_true_eq, decide_eq_true_eq,
    and_assoc]

/-- An event word decodes to one of the four events. -/
theorem isEvent_decodeEvent (w : EventWord) (ts te : Time) : isEvent (decodeEvent w ts te) = true := by
  unfold decodeEvent
  split
  · rfl
  · split
    · rfl
    · split <;> rfl

/-- What the host may present decodes to an event or to RESET. -/
theorem decode_of_hostWord {w : PortWord} (h : hostWord w = true) :
    ∃ i, decode w = .ok i ∧ (isEvent i = true ∨ ∃ ib vb, i = .reset ib vb) := by
  cases w with
  | evw w ts te => exact ⟨_, rfl, .inl (isEvent_decodeEvent w ts te)⟩
  | reset ib vb => exact ⟨_, rfl, .inr ⟨ib, vb, rfl⟩⟩
  | hw w startTime endTime => simp [hostWord] at h
  | fw w => simp [hostWord] at h

end Sys2Proof.Machine
end

