-- ==== Sys2Proof/Tests/Slice0.lean ====
section
/-! SUPPORT. Tests, each from a vector of 95_test_vectors.md or a layout of 30_encoding.md, and for every
statement that has hypotheses a state and operands that meet them. -/

namespace Sys2Proof.Tests

open Sys2Proof.Machine

/-! ## Small states -/

/-- IDLE, with the default parameters and RESET(0, 0). -/
def idleState : State := State.reset

/-- SAW_START with t0 = 5. -/
def sawState : State := idleState.beginAttempt 5

/-- IN_TXN on chip 0x20 with t0 = 5, the direction and payload given. -/
def txnState (rd : Bool) (buf : List Byte) : State :=
  { sawState with rs := .inTxn, chip := some 0x20, rd := rd, buf := buf }

/-- The same with a buffer bound. -/
def boundedState (n : Nat) (buf : List Byte) : State :=
  { txnState false buf with params := { defaultParams with maxPayload := some n } }

/-- IN_TXN under the policy IGNORE. -/
def ignoreState : State :=
  { txnState false [0x01] with params := { defaultParams with addrInTxn := .ignore } }

/-- IDLE with TIME the numbers below 2^n. -/
def timedState (n : Nat) : State :=
  { idleState with params := { defaultParams with timeWidth := some n } }

/-- What a test looks at in an outcome's next state. -/
def look {α : Type} (f : State → α) : Host.Outcome State Fault Refusal → Option α
  | .next t => some (f t)
  | .fault _ => none
  | .refused _ => none

/-- The new 32-bit words and the new field texts of a step. -/
def emitted (t : State) : List OutputWord × List (List String) :=
  (t.outputBits, (recordsOf t.output).map recordText)

/-! ## Well-formedness (30_encoding.md R84) -/

theorem test_wellFormed_refuses_pos_zero : (Instr.fieldBit .bank 0 true).wellFormed = false := by
  decide

theorem test_wellFormed_accepts_pos_seven : (Instr.fieldBit .bank 7 true).wellFormed = true := by
  decide

/-! ## Decoding: words written out bit by bit from 30_encoding.md R72 to R74, R79 to R83 -/

theorem test_decode_start : decode (.evw 0b001111111111 1 2) = .ok (.start 1 2) := by decide

theorem test_decode_address :
    decode (.evw 0b010110100000 0 0) = .ok (.address false 0x20 true 0 0) := by decide

theorem test_decode_address_read_nack :
    decode (.evw 0b011010100111 0 0) = .ok (.address true 0x27 false 0 0) := by decide

theorem test_decode_data : decode (.evw 0b101111111111 0 0) = .ok (.data 0xFF 0 0) := by decide

theorem test_decode_stop : decode (.evw 0b111111111111 3 4) = .ok (.stop 3 4) := by decide

theorem test_decode_header :
    decode (.hw 0b00000000000000010100000000100000 0 41) =
      .ok (.recordHeader 1 false true 0x20 0 41) := by decide

theorem test_decode_fieldReg :
    decode (.fw 0b00000000000101010000000000000001) = .ok (.fieldReg ⟨.olat, .b⟩ 0x01) := by decide

theorem test_decode_fieldUnrec :
    decode (.fw 0b01000000000000010000000000110011) = .ok (.fieldUnrec 0x100 0x33) := by decide

theorem test_decode_fieldBit :
    decode (.fw 0b10000000000000000001011000000000) = .ok (.fieldBit .mirror 6 false) := by decide

theorem test_decode_refuses_kind_11 : decode (.fw 0xC0000000) = .error .fieldKindReserved := by decide

theorem test_decode_refuses_regId_22 : decode (.fw 0x00160000) = .error .regIdReserved := by decide

theorem test_decode_refuses_nameId_7 : decode (.fw 0x80007100) = .error .nameIdReserved := by decide

theorem test_decode_refuses_pos_0 : decode (.fw 0x80000001) = .error .posZero := by decide

theorem test_decode_refuses_reserved_bits :
    decode (.fw 0x00000100) = .error .fieldReservedBits ∧
      decode (.hw 0x00000080 0 0) = .error .headerReservedBits := by decide

theorem test_tableWord_formats :
    decodeTableWord 16 0x520 = some (.address false 0x20 true 0 0) ∧
      decodeTableWord 32 0x00018023 = some (.recordHeader 1 true false 0x23 0 0) ∧
      decodeTableWord 32 0x00120005 = some (.fieldReg ⟨.gpio, .a⟩ 0x05) ∧
      decodeTableWord 8 2 = some (.reset false true) := by decide

/-! ## START (95_test_vectors.md T5, T14) -/

theorem test_start_twice_aborts : exec (.start 9 10) sawState = .next idleState := by rfl

theorem test_start_repeated : exec (.start 30 31) (txnState true [0x0a, 0x80]) =
    .next (idleState.beginAttempt 30) := by rfl

/-! ## ADDRESS (T9, T10, T20) -/

theorem test_address_window_edges :
    look (fun t => (t.rs, t.chip, t.rd)) (exec (.address true 0x27 true 0 0) sawState) =
        some (.inTxn, some 0x27, true) ∧
      look (fun t => t.rs) (exec (.address false 0x1F true 0 0) sawState) = some .idle ∧
      look (fun t => t.rs) (exec (.address false 0x28 true 0 0) sawState) = some .idle := by decide

theorem test_address_rephase_keeps_read :
    look (fun t => (t.rs, t.rd, t.buf)) (exec (.address false 0x20 true 0 0) (txnState true [0x01])) =
      some (.inTxn, true, []) := by decide

/-! ## DATA (T13, T22) -/

theorem test_data_appends :
    look (fun t => t.buf) (exec (.data 0x80 0 0) (txnState false [0x0a])) = some [0x0a, 0x80] := by
  decide

theorem test_data_truncates :
    look (fun t => (t.buf, t.trunc)) (exec (.data 0x22 0 0) (boundedState 2 [0x00, 0x11])) =
      some ([0x00, 0x11], true) := by decide

/-! ## STOP (T15 with X15, and X25) -/

theorem test_stop_switches_bank_inside_payload :
    look emitted (exec (.stop 40 41) (txnState false [0x0a, 0x80, 0x55])) =
      some ([0x00020020, 0x000A0080, 0x40000B55], [["IOCON=0x80", "0x0b (unrecognized)=0x55"]]) := by
  decide

theorem test_stop_verbose :
    look emitted (exec (.stop 0 1) { txnState false [0x0a, 0x84] with verbose := true }) =
      some ([0x00070020, 0x80000701, 0x80001600, 0x80002500, 0x80003400, 0x80005300, 0x80004201,
          0x80006100],
        [["BANK=True", "MIRROR=False", "SEQOP=False", "DISSLW=False", "ODR=False", "HAEN=True",
          "INTPOL=False"]]) := by decide

/-! ## RESET (P6, step 5) -/

theorem test_reset_drops_the_attempt :
    look (fun t => (t.rs, t.buf, t.verbose, bankRead t.bank 7, t.output))
      (exec (.reset true true) (txnState false [0x0a])) = some (.idle, [], true, true, []) := by decide

/-! ## The output rows (H5, F1, F8, F14) -/

theorem test_recordHeader_word :
    look (fun t => t.outputBits) (exec (.recordHeader 1 false true 0x20 0 0) idleState) =
      some [0x00014020] := by decide

theorem test_fieldReg_word :
    look (fun t => t.outputBits) (exec (.fieldReg ⟨.iocon, .a⟩ 0x80) idleState) =
      some [0x000A0080] := by decide

theorem test_fieldUnrec_word :
    look (fun t => t.outputBits) (exec (.fieldUnrec 0x100 0x33) idleState) = some [0x40010033] := by
  decide

theorem test_fieldBit_word :
    look (fun t => t.outputBits) (exec (.fieldBit .haen 2 true) idleState) = some [0x80004201] := by
  decide

/-! ## Text and parameters (30_encoding.md R88, R89; 41_register_decoder.md R148) -/

theorem test_read_event_line : readLine "A 0x27 R NACK @5,16" = some [.address true 0x27 false 5 16] := by
  decide

theorem test_read_pseudo_operation :
    readLine "WRITE 0x22 [0x0a,0x84]" =
      some [.start 0 0, .address false 0x22 true 0 0, .data 0x0a 0 0, .data 0x84 0 0, .stop 0 0] := by
  decide

theorem test_default_order :
    descendingOrder layoutDoc = [.bank, .mirror, .seqop, .disslw, .odr, .haen, .intpol] := by decide

theorem test_datasheet_layout_is_admissible : layoutAdmissible layoutDatasheet = true := by decide

theorem test_step_refuses_a_time_outside_TIME :
    step ((timedState 3).present (.evw 0x000 8 8)) = .refused .timestampOutsideTime := by rfl

theorem test_step_takes_the_last_time_of_TIME :
    look (fun t => t.t0) (step ((timedState 3).present (.evw 0x000 7 7))) = some (some 7) := by decide

/-! ## Witnesses: each meets the hypotheses of the statement it is named after -/

theorem witness_StartBeginsAnAttemptOrAborts :
    sawState.rs = .sawStart ∧ idleState.rs = .idle ∧ (txnState true [0x0a]).rs = .inTxn := by decide

theorem witness_AddressOpensAbortsOrIsIgnored :
    idleState.rs = .idle ∧ (ignoreState.rs = .inTxn ∧ ignoreState.params.addrInTxn = .ignore) ∧
      sawState.rs = .sawStart ∧
      ((txnState false [0x01]).rs = .inTxn ∧ (txnState false [0x01]).params.addrInTxn = .rephase) ∧
      (0x20 ≤ (0x20 : ChipAddr).toNat ∧ (0x20 : ChipAddr).toNat ≤ 0x27) ∧
      (0x20 ≤ (0x27 : ChipAddr).toNat ∧ (0x27 : ChipAddr).toNat ≤ 0x27) ∧
      ¬(0x20 ≤ (0x1F : ChipAddr).toNat ∧ (0x1F : ChipAddr).toNat ≤ 0x27) ∧
      ¬(0x20 ≤ (0x28 : ChipAddr).toNat ∧ (0x28 : ChipAddr).toNat ≤ 0x27) := by decide

theorem witness_DataAppendsTruncatesAbortsOrIsIgnored :
    idleState.rs = .idle ∧ sawState.rs = .sawStart ∧ (txnState false []).params.maxPayload = none ∧
      ((boundedState 2 [0x00]).rs = .inTxn ∧ (boundedState 2 [0x00]).buf.length < 2) ∧
      ((boundedState 2 [0x00, 0x11]).rs = .inTxn ∧ 2 ≤ (boundedState 2 [0x00, 0x11]).buf.length) := by
  decide

theorem witness_StopEmitsTheDecodedTransaction :
    idleState.Inv ∧ sawState.Inv ∧ sawState.rs = .sawStart ∧ (txnState false [0x0a, 0x80]).Inv ∧
      (txnState false [0x0a, 0x80]).rs = .inTxn :=
  ⟨by decide, by decide, rfl, by decide, rfl⟩

theorem witness_StopFaultsExactlyOnAMissingPart :
    exec (.stop 0 0) { txnState false [] with t0 := none } = .fault .emptyStartTime ∧
      exec (.stop 0 0) { txnState false [] with chip := none } = .fault .emptyChip ∧
      exec (.stop 0 0) { txnState false [] with chip := some 0x28 } = .fault .chipOutsideWindow :=
  ⟨rfl, rfl, rfl⟩

theorem witness_OnlyResetWritesTheConfiguration :
    (∀ ib vb, Instr.start 0 0 ≠ .reset ib vb) ∧
      exec (.start 0 0) idleState = .next (idleState.beginAttempt 0) :=
  ⟨by simp, rfl⟩

theorem witness_IdleIgnoresEveryEventButStart :
    idleState.rs = .idle ∧ isEvent (.data 0x11 0 0) = true ∧
      ∀ ts te, Instr.data 0x11 0 0 ≠ .start ts te :=
  ⟨rfl, rfl, by simp⟩

theorem witness_OneStopRecoversToIdle : (txnState true [0x05]).Inv ∧ sawState.Inv := by decide

theorem witness_StepRunsTheDecodedOperation :
    paramsAdmissible (idleState.present (.evw 0x000 5 6)).params = true ∧
      (idleState.present (.evw 0x000 5 6)).input = [.evw 0x000 5 6] ∧
      timesFit idleState.params.timeWidth (.evw 0x000 5 6) = true ∧
      decode (.evw 0x000 5 6) = .ok (.start 5 6) := by decide

theorem witness_StepHoldsTheStateWhenNothingIsPending :
    paramsAdmissible idleState.params = true ∧ idleState.input = [] := by decide

theorem witness_StepRefusesOnlyForTheNamedReasons :
    paramsAdmissible { defaultParams with maxPayload := some 0 } = false ∧
      paramsAdmissible (idleState.present (.fw 0xC0000000)).params = true ∧
      (idleState.present (.fw 0xC0000000)).input = [.fw 0xC0000000] ∧
      timesFit idleState.params.timeWidth (.fw 0xC0000000) = true ∧
      decode (.fw 0xC0000000) = .error .fieldKindReserved ∧
      paramsAdmissible (timedState 3).params = true ∧
      timesFit (timedState 3).params.timeWidth (.evw 0x000 7 8) = false := by decide

theorem witness_StepRefusesOnlyForTheNamedReasons_refused :
    step (idleState.present (.fw 0xC0000000)) = .refused (.reservedWord .fieldKindReserved) := by rfl

theorem witness_PlacedTableWordRunsNext :
    paramsAdmissible idleState.params = true ∧ decodeTableWord 16 0x80A = some (.data 0x0A 0 0) ∧
      decodeTableWord 32 0x40005AA5 = some (.fieldUnrec 0x5A 0xA5) := by decide

theorem witness_EveryEventWordDecodesByItsFields :
    (0x3FF : EventWord).toNat / 2 ^ 10 = 0 ∧ (0x400 : EventWord).toNat / 2 ^ 10 = 1 ∧
      (0xBFF : EventWord).toNat / 2 ^ 10 = 2 ∧ (0xC00 : EventWord).toNat / 2 ^ 10 = 3 := by decide

theorem witness_DecodeOfEncodeIsTheOperation :
    (Instr.fieldBit .intpol 1 true).wellFormed = true ∧ (Instr.data 0x80 3 4).wellFormed = true := by
  decide

theorem witness_EncodeOfDecodeIsTheWord :
    decode (.hw 0x00010020 0 30) = .ok (.recordHeader 1 false false 0x20 0 30) ∧
      decode (.fw 0x00150001) = .ok (.fieldReg ⟨.olat, .b⟩ 0x01) := by decide

theorem witness_OutputWordsAreTheirNumbers : 0xFFFF < 2 ^ 16 := by decide

theorem witness_AdmissibleParametersMeetTheConstraints :
    paramsAdmissible defaultParams = true ∧
      paramsAdmissible { defaultParams with layout := { layoutDoc with haen := 3 } } = false := by
  decide

theorem witness_OffsetsPastFFAreUnrecognizedUnwrapped :
    ([0x11, 0x22, 0x33] : List Byte)[2]? = some 0x33 ∧ 0xFF < (0xFE : Byte).toNat + 2 := by decide

theorem witness_FieldCountIsTheSumOverValueBytes : defaultParams.emitOrder.length = 7 := by decide

theorem witness_LastConfigurationWriteDecidesTheBank :
    (mapLookup defaultParams.regMap
        (bankRead (decodeValues defaultParams false false 0 0x09 [0x00] idleState.bank).1 0)
        (0x09 + [(0x00 : Byte)].length)).any isConfig = true ∧
      (mapLookup defaultParams.regMap ((0x80 : Byte).getLsbD 7) (0x09 + 1 + 1 + 0)).any isConfig =
        false := by decide

theorem witness_EventsChangeTheBankOnlyByConfigurationWrites :
    isEvent (.stop 0 1) = true ∧
      look (fun t => bankRead t.bank 0) (exec (.stop 0 1) (txnState false [0x0a, 0x80])) = some true ∧
      bankRead (txnState false [0x0a, 0x80]).bank 0 = false := by decide

theorem witness_OtherChipsKeepTheirBank :
    (txnState false [0x0a, 0x80]).chip = some 0x20 ∧
      (look (fun t => t.rs) (exec (.stop 0 1) (txnState false [0x0a, 0x80]))).isSome = true ∧
      (1 : Fin 8).val + 0x20 ≠ (0x20 : ChipAddr).toNat := by decide

theorem witness_VerboseGroupShowsEachNamedBitOnce :
    paramsAdmissible { defaultParams with emitOrder := allIoconBits } = true := by decide

theorem witness_IoconBitZeroReachesNeitherVerboseFieldsNorBank :
    layoutAdmissible defaultParams.layout = true ∧
      (mapLookup defaultParams.regMap
        (bankRead (decodeValues defaultParams true false 0 0x09 [0x12] (Vector.replicate 8 false)).1 0)
        (0x09 + 1)).any isConfig = true ∧
      ∀ k, 1 ≤ k → (0x84 : Byte).getLsbD k = (0x85 : Byte).getLsbD k := by
  refine ⟨by decide, by decide, fun k hk => ?_⟩
  by_cases h : k < 8
  · interval_cases k <;> decide
  · rw [BitVec.getLsbD_of_ge _ _ (by omega), BitVec.getLsbD_of_ge _ _ (by omega)]

theorem witness_ExactlyStopInTransactionEmits :
    isEvent (.stop 0 1) = true ∧
      look (fun t => t.outputBits) (exec (.stop 0 1) (txnState true [])) = some [0x00008020] := by decide

theorem witness_EmitRunsTheOutputRowsInOrder :
    (recordWords layoutDoc ⟨0, 1, 0x20, false, false, [.reg ⟨.iocon, .a⟩ 0x80]⟩).all wordFits = true := by
  decide

theorem witness_AStepEmitsAtMostOneRecord :
    (idleState.present (.evw 0xC00 0 0)).HostDriven ∧
      step (idleState.present (.evw 0xC00 0 0)) = .next idleState := by
  refine ⟨by decide, rfl⟩

theorem witness_BoundedPayloadsFitTheOutputWords :
    (boundedState 2 [0xFF, 0x11]).Inv ∧ (boundedState 2 [0xFF, 0x11]).params.maxPayload = some 2 ∧
      2 ≤ 65282 ∧ (boundedState 2 [0xFF, 0x11]).params.regMap = defaultRegMap ∧
      (boundedState 2 [0xFF, 0x11]).params.emitOrder.length = 7 ∧
      (look (fun t => t.rs) (exec (.stop 0 1) (boundedState 2 [0xFF, 0x11]))).isSome = true := by decide

theorem witness_EveryStepKeepsTheInvariant :
    ((txnState false [0x0a]).present (.evw 0x880 0 0)).Inv ∧
      step ((txnState false [0x0a]).present (.evw 0x880 0 0)) =
        .next ((txnState false [0x0a]).bufAppend 0x80) := by
  refine ⟨by decide, rfl⟩

theorem witness_HostDrivenRunsNeverStop :
    (idleState.present (.reset true false)).Inv ∧ (idleState.present (.reset true false)).HostDriven ∧
      paramsAdmissible (idleState.present (.reset true false)).params = true := by decide

theorem witness_EmittedChipsAreInTheWindow :
    ((txnState false []).present (.evw 0xC00 0 1)).HostDriven ∧
      look (fun t => t.outputBits) (run 1 ((txnState false []).present (.evw 0xC00 0 1))) =
        some [0x00000020] := by decide

theorem witness_FilteredTrafficLeavesNoTrace :
    (sawState.present (.evw 0x528 0 0)).Inv ∧ (sawState.present (.evw 0x528 0 0)).rs ≠ .inTxn ∧
      (sawState.present (.evw 0x528 0 0)).input.all filteredWord = true ∧
      run 1 (sawState.present (.evw 0x528 0 0)) = .next idleState := by
  refine ⟨by decide, by decide, by decide, rfl⟩

theorem witness_RecordTimesAreOrderedUnderTheDuty :
    ((txnState false []).present (.evw 0xC00 6 7)).HostDriven ∧
      ((txnState false []).present (.evw 0xC00 6 7)).t0 = some 5 ∧ (5 : Time) ≤ 6 ∧
      chronological 6 ((txnState false []).present (.evw 0xC00 6 7)).input = true ∧
      (look (fun t => t.rs) (run 1 ((txnState false []).present (.evw 0xC00 6 7)))).isSome = true := by
  decide

theorem witness_AWholeAttemptEmitsItsDecodedPayload :
    paramsAdmissible idleState.params = true ∧ idleState.rs = .idle ∧
      (2 : Fin 8).val + 0x20 = (0x22 : ChipAddr).toNat ∧
      attemptWords 0 1 false 0x22 2 3 [(0x0a, 4, 5)] 6 7 ++ [] =
        [.evw 0x000 0 1, .evw 0x522 2 3, .evw 0x80A 4 5, .evw 0xC00 6 7] ∧
      (attemptWords 0 1 false 0x22 2 3 [(0x0a, 4, 5)] 6 7).all
        (timesFit idleState.params.timeWidth) = true ∧
      idleState.params.maxPayload = none := by decide

theorem witness_AWholeAttemptEmitsItsDecodedPayload_cut :
    (boundedState 2 []).params.maxPayload = some 2 ∧ ([0x00, 0x11, 0x22] : List Byte).take 2 = [0x00, 0x11] ∧
      decide (2 < 3) = true := by decide

theorem witness_TimestampsAreOnlyCopied :
    ∀ t : Nat, timeFits (timedState 3).params.timeWidth (if t < 8 then 7 - t else t) =
      timeFits (timedState 3).params.timeWidth t := by
  intro t
  show decide ((if t < 8 then 7 - t else t) < 8) = decide (t < 8)
  by_cases h : t < 8
  · rw [if_pos h]
    exact decide_eq_decide.mpr (by omega)
  · rw [if_neg h]

theorem witness_TimestampsHeldAndEmittedAreOfTime :
    ((timedState 3).present (.evw 0x000 7 7)).TimesOfTime ∧
      step ((timedState 3).present (.evw 0x000 7 7)) = .next ((timedState 3).beginAttempt 7) :=
  ⟨by decide, rfl⟩

end Sys2Proof.Tests
end

section
/-! ## Proofs of 00_scope.md

What a host's word can do to the output port, how an emitted record is read back from it, and which
timestamps a step can hold or emit. -/

namespace Sys2Proof.Machine

variable {s t : State}

/-! ### Reading records back from the output port -/

@[simp] theorem recordsOf_header_cons (count : Nat) (isRead trunc : Bool) (chip : ChipAddr)
    (startTime endTime : Time) (ws : List OutWord) :
    recordsOf (.header count isRead trunc chip startTime endTime :: ws) =
      { startTime := startTime
        endTime := endTime
        chip := chip
        isRead := isRead
        truncated := trunc
        fields := leadingFields ws } :: recordsOf ws := rfl

@[simp] theorem recordsOf_fieldWord_cons (l : Layout) (f : Field) (ws : List OutWord) :
    recordsOf (fieldWord l f :: ws) = recordsOf ws := by
  cases f <;> rfl

/-- Field words open no record. -/
@[simp] theorem recordsOf_map_fieldWord (l : Layout) (fs : List Field) :
    recordsOf (fs.map (fieldWord l)) = [] := by
  induction fs with
  | nil => rfl
  | cons f fs ih => rw [List.map_cons, recordsOf_fieldWord_cons, ih]

@[simp] theorem leadingFields_map_fieldWord (l : Layout) (fs : List Field) :
    leadingFields (fs.map (fieldWord l)) = fs := by
  induction fs with
  | nil => rfl
  | cons f fs ih => simp [leadingFields, ih]

/-- The words of one record are read back as that record. -/
@[simp] theorem recordsOf_recordWords (l : Layout) (r : Record) :
    recordsOf (recordWords l r) = [r] := by
  simp [recordWords_eq]

/-- A record starts with a header, which ends the fields of the record before it. -/
@[simp] theorem leadingFields_append_recordWords (l : Layout) (r : Record) (ws : List OutWord) :
    leadingFields (ws ++ recordWords l r) = leadingFields ws := by
  induction ws with
  | nil => rfl
  | cons w ws ih => cases hw : wordField w <;> simp [leadingFields, hw, ih]

/-- 30_encoding.md R85, R86: a record emitted after any word stream is the one record more. -/
theorem recordsOf_append_recordWords (l : Layout) (r : Record) (ws : List OutWord) :
    recordsOf (ws ++ recordWords l r) = recordsOf ws ++ [r] := by
  induction ws with
  | nil => exact recordsOf_recordWords l r
  | cons w ws ih => cases w <;> simp [recordsOf, ih]

/-! ### What a completed transaction leaves -/

@[simp] theorem finishTxn_t0 (startTime te : Time) (chip : ChipAddr) (i : Fin 8) :
    (s.finishTxn startTime te chip i).t0 = none := by
  simp [finishTxn_eq]

@[simp] theorem finishTxn_params (startTime te : Time) (chip : ChipAddr) (i : Fin 8) :
    (s.finishTxn startTime te chip i).params = s.params := by
  simp [finishTxn_eq]

@[simp] theorem finishTxn_output (startTime te : Time) (chip : ChipAddr) (i : Fin 8) :
    (s.finishTxn startTime te chip i).output = s.output ++ recordWords s.params.layout
      (decodeTxn s.params s.verbose i (s.completedTxn startTime te chip) s.bank).2 := by
  simp [finishTxn_eq]

@[simp] theorem decodeTxn_startTime (p : Params) (verbose : Bool) (i : Fin 8) (txn : Txn)
    (b : BankTable) : (decodeTxn p verbose i txn b).2.startTime = txn.startTime := rfl

@[simp] theorem decodeTxn_endTime (p : Params) (verbose : Bool) (i : Fin 8) (txn : Txn)
    (b : BankTable) : (decodeTxn p verbose i txn b).2.endTime = txn.endTime := rfl

/-! ### What the host's words can emit -/

/-- An event or RESET leaves the output alone, or passes over it the words of one record. -/
theorem exec_host_output_cases {i : Instr} (hi : isEvent i = true ∨ ∃ ib vb, i = .reset ib vb)
    (h : exec i s = .next t) :
    t.output = s.output ∨ ∃ r, t.output = s.output ++ recordWords s.params.layout r := by
  cases i with
  | start ts te => obtain ⟨-, rfl⟩ | ⟨-, rfl⟩ := exec_start_cases h <;> simp
  | address read addr ack ts te =>
    obtain ⟨-, rfl⟩ | ⟨-, -, rfl⟩ | ⟨-, -, rfl⟩ | ⟨-, -, rfl⟩ := exec_address_cases h <;> simp
  | data byte ts te =>
    obtain ⟨-, rfl⟩ | ⟨-, rfl⟩ | ⟨-, -, rfl⟩ | ⟨-, -, rfl⟩ := exec_data_cases h <;> simp
  | stop ts te =>
    obtain ⟨-, rfl⟩ | ⟨-, rfl⟩ | ⟨-, startTime, chip, j, -, -, -, rfl⟩ := exec_stop_cases h
    · exact .inl rfl
    · exact .inl rfl
    · exact .inr ⟨_, finishTxn_output startTime te chip j⟩
  | reset ib vb =>
    obtain rfl : s.construct ib vb = t := by simpa [exec, execReset] using h
    exact .inl rfl
  | recordHeader => simp [isEvent] at hi
  | fieldReg => simp [isEvent] at hi
  | fieldUnrec => simp [isEvent] at hi
  | fieldBit => simp [isEvent] at hi

theorem hostWord_of_hostDriven {w : PortWord} {rest : List PortWord} (h : s.HostDriven)
    (hin : s.input = w :: rest) : hostWord w = true := by
  simp only [State.HostDriven, hin, List.all_cons, Bool.and_eq_true] at h
  obtain ⟨⟨hw, -⟩, -⟩ := h
  exact hw

/-- A step on what the host may present leaves the output alone, or passes over it the words of one
record. -/
theorem step_host_output_cases (hs : s.HostDriven) (h : step s = .next t) :
    t.output = s.output ∨ ∃ r, t.output = s.output ++ recordWords s.params.layout r := by
  obtain ⟨-, ⟨-, rfl⟩ | ⟨w, rest, i, hin, -, hd, he⟩⟩ := step_cases h
  · exact .inl rfl
  · obtain ⟨j, hj, hhost⟩ := decode_of_hostWord (hostWord_of_hostDriven hs hin)
    obtain rfl : i = j := by simpa [hd] using hj
    exact exec_host_output_cases (s := { s with input := rest }) hhost he

/-- Settles O42: the words a host-driven step adds are none or those of one record, and a record's words
are read back as one record after any earlier stream. -/
theorem aStepEmitsAtMostOneRecord : Obligations.AStepEmitsAtMostOneRecord := by
  intro s t hs h
  obtain ho | ⟨r, ho⟩ := step_host_output_cases hs h
  · exact .inl (by rw [ho])
  · exact .inr ⟨r, by rw [ho, recordsOf_append_recordWords]⟩

/-! ### The timestamps of an operation are those of its word -/

/-- The four events an event word can be, each with the word's own timestamps (30_encoding.md R71). -/
theorem decodeEvent_cases (w : EventWord) (ts te : Time) :
    decodeEvent w ts te = .start ts te ∨
    (∃ read addr ack, decodeEvent w ts te = .address read addr ack ts te) ∨
    (∃ byte, decodeEvent w ts te = .data byte ts te) ∨
    decodeEvent w ts te = .stop ts te := by
  unfold decodeEvent
  split
  · exact .inl rfl
  · split
    · exact .inr (.inl ⟨_, _, _, rfl⟩)
    · split
      · exact .inr (.inr (.inl ⟨_, rfl⟩))
      · exact .inr (.inr (.inr rfl))

/-- A decodable header word is a header with the timestamps beside it (30_encoding.md R79). -/
theorem decodeHeader_ok {w : OutputWord} {startTime endTime : Time} {i : Instr}
    (h : decodeHeader w startTime endTime = .ok i) :
    ∃ count isRead trunc chip, i = .recordHeader count isRead trunc chip startTime endTime := by
  unfold decodeHeader at h
  split at h
  · cases h
  · cases h
    exact ⟨_, _, _, _, rfl⟩

theorem decodeFieldReg_ok {w : OutputWord} {i : Instr} (h : decodeFieldReg w = .ok i) :
    ∃ id value, i = .fieldReg id value := by
  unfold decodeFieldReg at h
  split at h
  · cases h
  · split at h <;> cases h
    exact ⟨_, _, rfl⟩

theorem decodeFieldUnrec_ok {w : OutputWord} {i : Instr} (h : decodeFieldUnrec w = .ok i) :
    ∃ offset value, i = .fieldUnrec offset value := by
  unfold decodeFieldUnrec at h
  split at h <;> cases h
  exact ⟨_, _, rfl⟩

theorem decodeFieldBit_ok {w : OutputWord} {i : Instr} (h : decodeFieldBit w = .ok i) :
    ∃ name pos val, i = .fieldBit name pos val := by
  unfold decodeFieldBit at h
  split at h
  · cases h
  · split at h
    · cases h
    · split at h <;> cases h
      exact ⟨_, _, _, rfl⟩

/-- A decodable field word is a field of one of the three KINDs (30_encoding.md R80). -/
theorem decodeField_ok {w : OutputWord} {i : Instr} (h : decodeField w = .ok i) :
    (∃ id value, i = .fieldReg id value) ∨ (∃ offset value, i = .fieldUnrec offset value) ∨
      ∃ name pos val, i = .fieldBit name pos val := by
  unfold decodeField at h
  split at h
  · exact .inl (decodeFieldReg_ok h)
  · split at h
    · exact .inr (.inl (decodeFieldUnrec_ok h))
    · split at h
      · exact .inr (.inr (decodeFieldBit_ok h))
      · cases h

/-- 30_encoding.md R76: an operation carries the timestamps of the word it was decoded from. -/
theorem timesFit_encode_of_decode (timeWidth : Option Nat) {w : PortWord} {i : Instr}
    (h : decode w = .ok i) : timesFit timeWidth (encode i) = timesFit timeWidth w := by
  cases w with
  | evw w ts te =>
    obtain rfl : decodeEvent w ts te = i := by simpa [decode] using h
    obtain he | ⟨_, _, _, he⟩ | ⟨_, he⟩ | he := decodeEvent_cases w ts te <;> rw [he] <;> rfl
  | reset ib vb =>
    obtain rfl : Instr.reset ib vb = i := by simpa [decode] using h
    rfl
  | hw w startTime endTime =>
    obtain ⟨_, _, _, _, rfl⟩ := decodeHeader_ok h
    rfl
  | fw w => obtain ⟨_, _, rfl⟩ | ⟨_, _, rfl⟩ | ⟨_, _, _, rfl⟩ := decodeField_ok h <;> rfl

/-! ### Timestamps held and emitted -/

theorem timeFits_some_iff (n : Nat) (t : Time) : timeFits (some n) t = true ↔ t < 2 ^ n :=
  decide_eq_true_iff

@[simp] theorem outTimesFit_header (timeWidth : Option Nat) (count : Nat) (isRead trunc : Bool)
    (chip : ChipAddr) (startTime endTime : Time) :
    outTimesFit timeWidth (.header count isRead trunc chip startTime endTime) =
      (timeFits timeWidth startTime && timeFits timeWidth endTime) := rfl

@[simp] theorem outTimesFit_fieldWord (timeWidth : Option Nat) (l : Layout) (f : Field) :
    outTimesFit timeWidth (fieldWord l f) = true := by
  cases f <;> rfl

/-- Of a record's words only the header carries timestamps. -/
theorem all_outTimesFit_recordWords (timeWidth : Option Nat) (l : Layout) (r : Record) :
    (recordWords l r).all (outTimesFit timeWidth) =
      (timeFits timeWidth r.startTime && timeFits timeWidth r.endTime) := by
  simp [recordWords_eq]

/-- Dropping the start time held keeps TimesOfTime: it reads the parameters and the output besides. -/
theorem timesOfTime_of_t0_none (hs : s.TimesOfTime) (ht0 : t.t0 = none)
    (hp : t.params = s.params) (ho : t.output = s.output) : t.TimesOfTime := by
  obtain ⟨-, hout⟩ := hs
  exact ⟨by rw [ht0]; rfl, by rw [hp, ho]; exact hout⟩

theorem timesOfTime_resetToIdle (hs : s.TimesOfTime) : s.resetToIdle.TimesOfTime :=
  timesOfTime_of_t0_none hs rfl rfl rfl

theorem timesOfTime_putWord {w : OutWord} (hs : s.TimesOfTime)
    (hw : outTimesFit s.params.timeWidth w = true) : (s.putWord w).TimesOfTime := by
  obtain ⟨ht0, hout⟩ := hs
  exact ⟨ht0, by simp [hout, hw]⟩

/-- The record a STOP emits has the start time held and the STOP's own end time
(40_reassembler.md R106). -/
theorem timesOfTime_finishTxn {startTime te : Time} (chip : ChipAddr) (i : Fin 8)
    (hs : s.TimesOfTime) (ht0 : s.t0 = some startTime)
    (hte : timeFits s.params.timeWidth te = true) :
    (s.finishTxn startTime te chip i).TimesOfTime := by
  obtain ⟨hstart, hout⟩ := hs
  have hstart : timeFits s.params.timeWidth startTime = true := by simpa [ht0] using hstart
  refine ⟨by simp, ?_⟩
  rw [finishTxn_params, finishTxn_output, List.all_append, hout, all_outTimesFit_recordWords]
  simp [State.completedTxn, hstart, hte]

/-- An operation whose own timestamps are of TIME keeps those held and emitted of TIME: a start time is
held only from a START, a header's timestamps are its own, a record's are the start time held and STOP's
end time. -/
theorem exec_keeps_timesOfTime {i : Instr} (hi : timesFit s.params.timeWidth (encode i) = true)
    (hs : s.TimesOfTime) (h : exec i s = .next t) : t.TimesOfTime := by
  cases i with
  | start ts te =>
    obtain ⟨-, rfl⟩ | ⟨-, rfl⟩ := exec_start_cases h
    · exact timesOfTime_resetToIdle hs
    · obtain ⟨hts, -⟩ := Bool.and_eq_true_iff.mp hi
      obtain ⟨-, hout⟩ := hs
      exact ⟨hts, hout⟩
  | address read addr ack ts te =>
    obtain ⟨-, rfl⟩ | ⟨-, -, rfl⟩ | ⟨-, -, rfl⟩ | ⟨-, -, rfl⟩ := exec_address_cases h
    · exact hs
    · exact hs
    · exact hs
    · exact timesOfTime_resetToIdle hs
  | data byte ts te =>
    obtain ⟨-, rfl⟩ | ⟨-, rfl⟩ | ⟨-, -, rfl⟩ | ⟨-, -, rfl⟩ := exec_data_cases h
    · exact hs
    · exact timesOfTime_resetToIdle hs
    · exact hs
    · exact hs
  | stop ts te =>
    obtain ⟨-, rfl⟩ | ⟨-, rfl⟩ | ⟨-, startTime, chip, j, ht0, -, -, rfl⟩ := exec_stop_cases h
    · exact hs
    · exact timesOfTime_resetToIdle hs
    · obtain ⟨-, hte⟩ := Bool.and_eq_true_iff.mp hi
      exact timesOfTime_finishTxn chip j hs ht0 hte
  | reset ib vb =>
    obtain rfl : s.construct ib vb = t := by simpa [exec, execReset] using h
    exact timesOfTime_of_t0_none hs rfl rfl rfl
  | recordHeader count isRead trunc chip startTime endTime =>
    obtain rfl : s.putWord _ = t := by simpa [exec, execRecordHeader] using h
    exact timesOfTime_putWord hs hi
  | fieldReg id value =>
    obtain rfl : s.putWord _ = t := by simpa [exec, execFieldReg] using h
    exact timesOfTime_putWord hs rfl
  | fieldUnrec offset value =>
    obtain rfl : s.putWord _ = t := by simpa [exec, execFieldUnrec] using h
    exact timesOfTime_putWord hs rfl
  | fieldBit name pos val =>
    obtain rfl : s.putWord _ = t := by simpa [exec, execFieldBit] using h
    exact timesOfTime_putWord hs rfl

/-- A step refuses a word with a timestamp outside TIME, so it keeps TimesOfTime with no hypothesis on
what is pending. -/
theorem step_keeps_timesOfTime (hs : s.TimesOfTime) (h : step s = .next t) : t.TimesOfTime := by
  obtain ⟨-, ⟨-, rfl⟩ | ⟨w, rest, i, -, htimes, hd, he⟩⟩ := step_cases h
  · exact hs
  · have hi : timesFit s.params.timeWidth (encode i) = true :=
      (timesFit_encode_of_decode _ hd).trans htimes
    exact exec_keeps_timesOfTime (s := { s with input := rest }) hi hs he

/-- Settles O50: the step's check of the presented word covers every timestamp an operation can hold or
emit. -/
theorem timestampsHeldAndEmittedAreOfTime : Obligations.TimestampsHeldAndEmittedAreOfTime := by
  refine ⟨fun t => ⟨timeFits_none t, fun n => timeFits_some_iff n t⟩, ?_, ?_⟩
  · exact fun s t => step_keeps_timesOfTime
  · exact fun p ib vb => ⟨rfl, rfl⟩

end Sys2Proof.Machine
end

section
/-! ## Proofs of 10_state.md

What each operation does to the invariant of R34, to the configuration, to the bank table and to the
output that has already crossed the port. -/

namespace Sys2Proof.Machine

variable {s t : State}

/-! ### States of the invariant -/

theorem inv_of_transientCleared (h : s.TransientCleared) : s.Inv := by
  obtain ⟨hrs, ht0, hchip, hrd, hbuf, htrunc⟩ := h
  simp [State.Inv, hrs, ht0, hchip, hrd, hbuf, htrunc]

theorem transientCleared_resetToIdle (s : State) : s.resetToIdle.TransientCleared :=
  ⟨rfl, rfl, rfl, rfl, rfl, rfl⟩

theorem transientCleared_construct (s : State) (ib vb : Bool) :
    (s.construct ib vb).TransientCleared :=
  ⟨rfl, rfl, rfl, rfl, rfl, rfl⟩

theorem transientCleared_afterReset (p : Params) (ib vb : Bool) :
    (State.afterReset p ib vb).TransientCleared :=
  ⟨rfl, rfl, rfl, rfl, rfl, rfl⟩

theorem transientCleared_finishTxn (s : State) (startTime te : Time) (chip : ChipAddr) (i : Fin 8) :
    (s.finishTxn startTime te chip i).TransientCleared := by
  rw [finishTxn_eq]
  exact transientCleared_resetToIdle s

/-- The invariant at IN_TXN, where only the last two of its clauses say anything. -/
theorem inv_iff_of_inTxn (hrs : s.rs = .inTxn) :
    s.Inv ↔ (s.t0.isSome = true ∧ s.chip.any inWindow = true ∧
      payloadFits s.params.maxPayload s.buf.length = true) ∧
      (s.trunc = true → s.params.maxPayload.isSome = true) := by
  simp [State.Inv, hrs]

theorem t0_isSome_of_inv (hs : s.Inv) (hrs : s.rs ≠ .idle) : s.t0.isSome = true := by
  obtain ⟨-, hsaw, htxn, -⟩ := hs
  cases h : s.rs with
  | idle => exact absurd h hrs
  | sawStart => exact (hsaw h).1
  | inTxn => exact (htxn h).1

/-! ### The buffer bound -/

@[simp] theorem payloadFits_zero (maxPayload : Option Nat) : payloadFits maxPayload 0 = true := by
  cases maxPayload <;> simp [payloadFits]

/-- A buffer that is not full has room for one more byte (20_memory.md R52). -/
theorem payloadFits_succ_of_not_full {maxPayload : Option Nat} {buf : List Byte}
    (h : bufFull maxPayload buf = false) : payloadFits maxPayload (buf.length + 1) = true := by
  cases maxPayload with
  | none => rfl
  | some n =>
    have hlt : buf.length < n := by simpa using h
    simpa [payloadFits] using hlt

/-- Only a finite bound is ever reached. -/
theorem maxPayload_isSome_of_full {maxPayload : Option Nat} {buf : List Byte}
    (h : bufFull maxPayload buf = true) : maxPayload.isSome = true := by
  cases maxPayload with
  | none => simp at h
  | some n => rfl

/-! ### The updates that begin or extend an attempt keep the invariant -/

theorem inv_beginAttempt (s : State) (ts : Time) : (s.beginAttempt ts).Inv := by
  simp [State.Inv]

theorem inv_openTxn (hs : s.Inv) (hrs : s.rs ≠ .idle) (read : Bool) {addr : ChipAddr}
    (ha : inWindow addr = true) : (s.openTxn read addr).Inv := by
  rw [inv_iff_of_inTxn rfl]
  simp [t0_isSome_of_inv hs hrs, ha]

theorem inv_bufAppend (hs : s.Inv) (hrs : s.rs = .inTxn)
    (hroom : bufFull s.params.maxPayload s.buf = false) (b : Byte) : (s.bufAppend b).Inv := by
  obtain ⟨⟨ht0, hchip, -⟩, htrunc⟩ := (inv_iff_of_inTxn hrs).mp hs
  rw [inv_iff_of_inTxn (s := s.bufAppend b) hrs]
  exact ⟨⟨ht0, hchip, by simpa using payloadFits_succ_of_not_full hroom⟩, htrunc⟩

theorem inv_setTrunc (hs : s.Inv) (hrs : s.rs = .inTxn)
    (hfull : bufFull s.params.maxPayload s.buf = true) : s.setTrunc.Inv := by
  obtain ⟨htxn, -⟩ := (inv_iff_of_inTxn hrs).mp hs
  rw [inv_iff_of_inTxn (s := s.setTrunc) hrs]
  exact ⟨htxn, fun _ => maxPayload_isSome_of_full hfull⟩

/-- The invariant does not read the output. -/
theorem inv_putWord (hs : s.Inv) (w : OutWord) : (s.putWord w).Inv := hs

/-- The invariant does not read the pending input. -/
theorem inv_withInput (hs : s.Inv) (ws : List PortWord) : State.Inv { s with input := ws } := hs

/-! ### Every operation and every step keeps the invariant -/

/-- What is neither an event nor RESET is an output row, which passes its one word over the port. -/
theorem exec_outputRow_eq_putWord {i : Instr} (hevent : isEvent i = false)
    (hreset : ∀ ib vb, i ≠ .reset ib vb) (h : exec i s = .next t) : ∃ w, t = s.putWord w := by
  cases i with
  | start | address | data | stop => simp [isEvent] at hevent
  | reset ib vb => exact absurd rfl (hreset ib vb)
  | recordHeader | fieldReg | fieldUnrec | fieldBit =>
    cases h
    exact ⟨_, rfl⟩

theorem exec_keeps_inv {i : Instr} (hs : s.Inv) (h : exec i s = .next t) : t.Inv := by
  cases i with
  | start ts te =>
    obtain ⟨-, rfl⟩ | ⟨-, rfl⟩ := exec_start_cases h
    · exact inv_of_transientCleared (transientCleared_resetToIdle s)
    · exact inv_beginAttempt s ts
  | address read addr ack ts te =>
    obtain ⟨-, rfl⟩ | ⟨-, -, rfl⟩ | ⟨hrs, ha, rfl⟩ | ⟨-, -, rfl⟩ := exec_address_cases h
    · exact hs
    · exact hs
    · obtain ⟨-, hw⟩ := (accept_eq_true_iff ack addr).mp ha
      exact inv_openTxn hs hrs read hw
    · exact inv_of_transientCleared (transientCleared_resetToIdle s)
  | data byte ts te =>
    obtain ⟨-, rfl⟩ | ⟨-, rfl⟩ | ⟨hrs, hroom, rfl⟩ | ⟨hrs, hfull, rfl⟩ := exec_data_cases h
    · exact hs
    · exact inv_of_transientCleared (transientCleared_resetToIdle s)
    · exact inv_bufAppend hs hrs hroom byte
    · exact inv_setTrunc hs hrs hfull
  | stop ts te =>
    obtain ⟨-, rfl⟩ | ⟨-, rfl⟩ | ⟨-, startTime, chip, j, -, -, -, rfl⟩ := exec_stop_cases h
    · exact hs
    · exact inv_of_transientCleared (transientCleared_resetToIdle s)
    · exact inv_of_transientCleared (transientCleared_finishTxn s startTime te chip j)
  | reset ib vb =>
    obtain rfl : s.construct ib vb = t := by simpa [exec, execReset] using h
    exact inv_of_transientCleared (transientCleared_construct s ib vb)
  | recordHeader | fieldReg | fieldUnrec | fieldBit =>
    obtain ⟨w, rfl⟩ := exec_outputRow_eq_putWord rfl (by simp) h
    exact inv_putWord hs w

theorem step_keeps_inv (hs : s.Inv) (h : step s = .next t) : t.Inv := by
  obtain ⟨-, ⟨-, rfl⟩ | ⟨w, rest, i, -, -, -, he⟩⟩ := step_cases h
  · exact hs
  · exact exec_keeps_inv (inv_withInput hs rest) he

/-- Settles O44: the step runs an operation on the state with its word taken, and every operation keeps
the invariant. -/
theorem everyStepKeepsTheInvariant : Obligations.EveryStepKeepsTheInvariant :=
  fun _ _ => step_keeps_inv

/-- Settles O43: the state after RESET is IDLE with every transient element cleared. -/
theorem resetMeetsTheInvariant : Obligations.ResetMeetsTheInvariant := by
  have hreset (p : Params) (ib vb : Bool) : (State.afterReset p ib vb).Inv :=
    inv_of_transientCleared (transientCleared_afterReset p ib vb)
  have hparams : paramsAdmissible State.reset.params = true := by decide
  exact ⟨hreset, hreset defaultParams false false, hparams⟩

/-! ### The bank table -/

@[simp] theorem finishTxn_bank (startTime te : Time) (chip : ChipAddr) (i : Fin 8) :
    (s.finishTxn startTime te chip i).bank =
      (decodePayload s.params s.verbose s.rd i s.buf s.bank).1 := by
  rw [finishTxn_eq]
  rfl

/-- If the decode of value bytes changes the bank table, it is a write and a byte resolves to IOCON under
the mode held before: until the first such byte the mode does not change (41_register_decoder.md R154). -/
theorem decodeValues_bank_ne {p : Params} {verbose isRead : Bool} {i : Fin 8} {off : Nat}
    {vs : List Byte} {b : BankTable} (h : (decodeValues p verbose isRead i off vs b).1 ≠ b) :
    isRead = false ∧
      ∃ k, k < vs.length ∧ (mapLookup p.regMap (bankRead b i) (off + k)).any isConfig = true := by
  induction vs generalizing off with
  | nil => exact absurd rfl h
  | cons v vs ih =>
    obtain hkeep | ⟨hwrite, hconfig, -⟩ :=
      valueBank_cases isRead i v b (mapLookup p.regMap (bankRead b i) off)
    · rw [decodeValues_cons, hkeep] at h
      obtain ⟨hwrite, k, hk, hconfig⟩ := ih h
      rw [Nat.add_assoc, Nat.add_comm 1] at hconfig
      exact ⟨hwrite, k + 1, Nat.succ_lt_succ hk, hconfig⟩
    · exact ⟨hwrite, 0, Nat.succ_pos _, hconfig⟩

theorem decodePayload_bank_ne {p : Params} {verbose isRead : Bool} {i : Fin 8} {bytes : List Byte}
    {b : BankTable} (h : (decodePayload p verbose isRead i bytes b).1 ≠ b) :
    isRead = false ∧ ∃ o vs k, bytes = o :: vs ∧ k < vs.length ∧
      (mapLookup p.regMap (bankRead b i) (o.toNat + k)).any isConfig = true := by
  cases bytes with
  | nil => exact absurd rfl h
  | cons o vs =>
    obtain ⟨hwrite, k, hk, hconfig⟩ := decodeValues_bank_ne h
    exact ⟨hwrite, o, vs, k, rfl, hk, hconfig⟩

/-- An event leaves the bank table, or is a STOP in IN_TXN whose decode writes it. -/
theorem exec_event_bank_cases {e : Instr} (he : isEvent e = true) (h : exec e s = .next t) :
    t.bank = s.bank ∨
    ((∃ ts te, e = .stop ts te) ∧ s.rs = .inTxn ∧ ∃ chip i, s.chip = some chip ∧
      bankIndex chip = some i ∧ t.bank = (decodePayload s.params s.verbose s.rd i s.buf s.bank).1) := by
  cases e with
  | start ts te => obtain ⟨-, rfl⟩ | ⟨-, rfl⟩ := exec_start_cases h <;> exact .inl rfl
  | address read addr ack ts te =>
    obtain ⟨-, rfl⟩ | ⟨-, -, rfl⟩ | ⟨-, -, rfl⟩ | ⟨-, -, rfl⟩ := exec_address_cases h <;>
      exact .inl rfl
  | data byte ts te =>
    obtain ⟨-, rfl⟩ | ⟨-, rfl⟩ | ⟨-, -, rfl⟩ | ⟨-, -, rfl⟩ := exec_data_cases h <;> exact .inl rfl
  | stop ts te =>
    obtain ⟨-, rfl⟩ | ⟨-, rfl⟩ | ⟨hrs, startTime, chip, i, -, hchip, hi, rfl⟩ := exec_stop_cases h
    · exact .inl rfl
    · exact .inl rfl
    · exact .inr ⟨⟨ts, te, rfl⟩, hrs, chip, i, hchip, hi, finishTxn_bank startTime te chip i⟩
  | reset | recordHeader | fieldReg | fieldUnrec | fieldBit => simp [isEvent] at he

/-- Settles O33: of the events only a completing STOP runs the decode, and the decode changes the bank
table only at a value byte of a write that resolves to IOCON. -/
theorem eventsChangeTheBankOnlyByConfigurationWrites :
    Obligations.EventsChangeTheBankOnlyByConfigurationWrites := by
  intro e s t he h hne
  obtain hkeep | ⟨hstop, hrs, chip, i, hchip, hi, hbank⟩ := exec_event_bank_cases he h
  · exact absurd hkeep hne
  · rw [hbank] at hne
    obtain ⟨hwrite, o, vs, k, hbuf, hk, hconfig⟩ := decodePayload_bank_ne hne
    exact ⟨hstop, hrs, hwrite, chip, i, o, vs, k, hchip, hi, hbuf, hk, hconfig⟩

/-! ### The configuration -/

/-- Settles O8: no update but that of RESET writes INIT_BANK or VERBOSE. -/
theorem onlyResetWritesTheConfiguration : Obligations.OnlyResetWritesTheConfiguration := by
  intro i s t hi h
  cases i with
  | start ts te => obtain ⟨-, rfl⟩ | ⟨-, rfl⟩ := exec_start_cases h <;> exact ⟨rfl, rfl⟩
  | address read addr ack ts te =>
    obtain ⟨-, rfl⟩ | ⟨-, -, rfl⟩ | ⟨-, -, rfl⟩ | ⟨-, -, rfl⟩ := exec_address_cases h <;>
      exact ⟨rfl, rfl⟩
  | data byte ts te =>
    obtain ⟨-, rfl⟩ | ⟨-, rfl⟩ | ⟨-, -, rfl⟩ | ⟨-, -, rfl⟩ := exec_data_cases h <;>
      exact ⟨rfl, rfl⟩
  | stop ts te =>
    obtain ⟨-, rfl⟩ | ⟨-, rfl⟩ | ⟨-, _, _, _, -, -, -, rfl⟩ := exec_stop_cases h
    · exact ⟨rfl, rfl⟩
    · exact ⟨rfl, rfl⟩
    · simp [finishTxn_eq]
  | reset ib vb => exact absurd rfl (hi ib vb)
  | recordHeader | fieldReg | fieldUnrec | fieldBit =>
    obtain ⟨w, rfl⟩ := exec_outputRow_eq_putWord rfl (by simp) h
    exact ⟨rfl, rfl⟩

/-! ### When STOP faults -/

theorem bankIndex_eq_none_iff (a : ChipAddr) :
    bankIndex a = none ↔ ¬(0x20 ≤ a.toNat ∧ a.toNat ≤ 0x27) := by
  rw [← inWindow_eq_true_iff]
  simp [bankIndex]

/-- A fault of STOP names the first missing part, in the order start time, chip, bank index. -/
theorem exec_stop_fault_iff {ts te : Time} {f : Fault} :
    exec (.stop ts te) s = .fault f ↔ s.rs = .inTxn ∧
      ((s.t0 = none ∧ f = .emptyStartTime) ∨
       (s.t0.isSome = true ∧ s.chip = none ∧ f = .emptyChip) ∨
       (s.t0.isSome = true ∧ (∃ chip, s.chip = some chip ∧ bankIndex chip = none) ∧
         f = .chipOutsideWindow)) := by
  cases hrs : s.rs with
  | idle => simp [exec, execStop, hrs]
  | sawStart => simp [exec, execStop, hrs]
  | inTxn =>
    cases ht0 : s.t0 with
    | none => simp [exec, execStop, hrs, ht0, eq_comm]
    | some startTime =>
      cases hchip : s.chip with
      | none => simp [exec, execStop, hrs, ht0, hchip, eq_comm]
      | some chip => cases hi : bankIndex chip <;> simp [exec, execStop, hrs, ht0, hchip, hi, eq_comm]

/-- Settles O6: each fault is one of the three missing parts, and the bank index is missing exactly
outside 0x20 to 0x27. -/
theorem stopFaultsExactlyOnAMissingPart : Obligations.StopFaultsExactlyOnAMissingPart := by
  intro ts te s
  simp [exec_stop_fault_iff, bankIndex_eq_none_iff]

/-! ### Earlier output -/

section EarlierOutput

variable (o : List OutWord) (s : State)

@[simp] theorem State.withEarlierOutput_rs : (s.withEarlierOutput o).rs = s.rs := rfl
@[simp] theorem State.withEarlierOutput_t0 : (s.withEarlierOutput o).t0 = s.t0 := rfl
@[simp] theorem State.withEarlierOutput_chip : (s.withEarlierOutput o).chip = s.chip := rfl
@[simp] theorem State.withEarlierOutput_params : (s.withEarlierOutput o).params = s.params := rfl

@[simp] theorem resetToIdle_withEarlierOutput :
    (s.withEarlierOutput o).resetToIdle = s.resetToIdle.withEarlierOutput o := rfl

@[simp] theorem beginAttempt_withEarlierOutput (ts : Time) :
    (s.withEarlierOutput o).beginAttempt ts = (s.beginAttempt ts).withEarlierOutput o := rfl

@[simp] theorem construct_withEarlierOutput (ib vb : Bool) :
    (s.withEarlierOutput o).construct ib vb = (s.construct ib vb).withEarlierOutput o := rfl

@[simp] theorem addressPhase_withEarlierOutput (read : Bool) (addr : ChipAddr) (ack : Bool) :
    (s.withEarlierOutput o).addressPhase read addr ack =
      (s.addressPhase read addr ack).withEarlierOutput o := by
  cases ha : accept ack addr
  · simp [addressPhase_of_reject read ha]
  · simp only [addressPhase_of_accept read ha]
    rfl

@[simp] theorem appendData_withEarlierOutput (b : Byte) :
    (s.withEarlierOutput o).appendData b = (s.appendData b).withEarlierOutput o := by
  obtain ⟨hroom, he⟩ | ⟨hfull, he⟩ := appendData_cases s b
  · rw [he, appendData_of_room (s := s.withEarlierOutput o) b hroom]
    rfl
  · rw [he, appendData_of_full (s := s.withEarlierOutput o) b hfull]
    rfl

/-- A word crosses the port after everything that crossed before it (30_encoding.md R86). -/
@[simp] theorem putWord_withEarlierOutput (w : OutWord) :
    (s.withEarlierOutput o).putWord w = (s.putWord w).withEarlierOutput o := by
  simp [State.putWord, State.withEarlierOutput]

@[simp] theorem finishTxn_withEarlierOutput (startTime te : Time) (chip : ChipAddr) (i : Fin 8) :
    (s.withEarlierOutput o).finishTxn startTime te chip i =
      (s.finishTxn startTime te chip i).withEarlierOutput o := by
  simp only [finishTxn_eq, State.withEarlierOutput, State.resetToIdle, State.completedTxn,
    List.append_assoc]

theorem execStop_withEarlierOutput (ts te : Time) :
    execStop ts te (s.withEarlierOutput o) =
      mapNext (State.withEarlierOutput o) (execStop ts te s) := by
  cases hrs : s.rs with
  | idle => simp [execStop, hrs, mapNext]
  | sawStart => simp [execStop, hrs, mapNext]
  | inTxn =>
    cases ht0 : s.t0 with
    | none => simp [execStop, hrs, ht0, mapNext]
    | some startTime =>
      cases hchip : s.chip with
      | none => simp [execStop, hrs, ht0, hchip, mapNext]
      | some chip => cases hi : bankIndex chip <;> simp [execStop, hrs, ht0, hchip, hi, mapNext]

theorem exec_withEarlierOutput (i : Instr) :
    exec i (s.withEarlierOutput o) = mapNext (State.withEarlierOutput o) (exec i s) := by
  cases i with
  | start ts te => cases hrs : s.rs <;> simp [exec, execStart, hrs, mapNext]
  | address read addr ack ts te =>
    cases hrs : s.rs
    case inTxn => cases hp : s.params.addrInTxn <;> simp [exec, execAddress, hrs, hp, mapNext]
    all_goals simp [exec, execAddress, hrs, mapNext]
  | data byte ts te => cases hrs : s.rs <;> simp [exec, execData, hrs, mapNext]
  | stop ts te => exact execStop_withEarlierOutput o s ts te
  | reset ib vb => simp [exec, execReset, mapNext]
  | recordHeader => simp [exec, execRecordHeader, mapNext]
  | fieldReg => simp [exec, execFieldReg, mapNext]
  | fieldUnrec => simp [exec, execFieldUnrec, mapNext]
  | fieldBit => simp [exec, execFieldBit, mapNext]

theorem step_withEarlierOutput :
    step (s.withEarlierOutput o) = mapNext (State.withEarlierOutput o) (step s) := by
  cases hp : paramsAdmissible s.params with
  | false => simp [step, hp, mapNext]
  | true =>
    cases hin : s.input with
    | nil =>
      have hin' : (s.withEarlierOutput o).input = [] := hin
      simp [step, hp, takeInput_of_nil hin, takeInput_of_nil hin', mapNext]
    | cons w rest =>
      have hin' : (s.withEarlierOutput o).input = w :: rest := hin
      simp only [step, State.withEarlierOutput_params, hp, takeInput_of_cons hin,
        takeInput_of_cons hin', if_true]
      cases readWord s.params w with
      | ok i => exact exec_withEarlierOutput o { s with input := rest } i
      | error r => rfl

theorem run_withEarlierOutput (k : Nat) :
    run k (s.withEarlierOutput o) = mapNext (State.withEarlierOutput o) (run k s) := by
  induction k generalizing s with
  | zero => rfl
  | succ k ih =>
    rw [run, run, step_withEarlierOutput]
    cases step s with
    | next t => exact ih t
    | fault r => rfl
    | refused r => rfl

end EarlierOutput

/-- Settles O51: every update commutes with earlier output, so every operation, step and run does. -/
theorem earlierOutputIsNeverRead : Obligations.EarlierOutputIsNeverRead :=
  fun o k s => run_withEarlierOutput o s k

end Sys2Proof.Machine
end

section
/-! ## Proofs of 20_memory.md

The payload bound of R52: what a payload of bounded length decodes to fits the 16-bit fields of the output
words. -/

namespace Sys2Proof.Machine

variable {s t : State}

/-! ### Where the default map has IOCON -/

theorem isConfig_offset_le_of_mem_default {bank : Bool} {off : Byte} {id : RegId}
    (hmem : (off, id) ∈ mapTable defaultRegMap bank) (hid : isConfig id = true) :
    off.toNat ≤ 0x15 := by
  have htable : ∀ (bank : Bool), ∀ e ∈ mapTable defaultRegMap bank,
      isConfig e.2 = true → e.1.toNat ≤ 0x15 := by decide
  exact htable bank (off, id) hmem hid

/-- The last of the four IOCON offsets 0x05, 0x0A, 0x0B, 0x15 (20_memory.md R52). -/
theorem isConfig_offset_le_of_default {bank : Bool} {off : Nat} {id : RegId}
    (hlookup : mapLookup defaultRegMap bank off = some id) (hid : isConfig id = true) : off ≤ 0x15 := by
  rw [mapLookup, Option.ite_none_right_eq_some] at hlookup
  obtain ⟨hoff, hlookup⟩ := hlookup
  obtain ⟨_, _, htable, -⟩ := List.lookup_eq_some_iff.mp hlookup
  have hmem : (BitVec.ofNat 8 off, id) ∈ mapTable defaultRegMap bank := by simp [htable]
  have hle := isConfig_offset_le_of_mem_default hmem hid
  rwa [BitVec.toNat_ofNat, Nat.mod_eq_of_lt (Nat.lt_succ_of_le hoff)] at hle

/-! ### How many fields a payload gives -/

/-- One field for a value byte, seven for a verbose group. -/
theorem length_valueFields_cases {p : Params} (horder : p.emitOrder.length = 7) (verbose : Bool)
    (off : Nat) (v : Byte) (id : Option RegId) :
    (valueFields p verbose off v id).length ≤ 1 ∨
      (id.any isConfig = true ∧ (valueFields p verbose off v id).length = 7) := by
  cases id with
  | none => exact .inl le_rfl
  | some r => cases hc : isConfig r <;> cases verbose <;> simp [valueFields, hc, horder]

/-- 41_register_decoder.md R159 with the default map: six fields more than value bytes for each offset that
can still show a verbose group. The offsets grow, so none shows two, whatever the bank does. -/
theorem length_decodeValues_le {p : Params} (hmap : p.regMap = defaultRegMap)
    (horder : p.emitOrder.length = 7) (verbose isRead : Bool) (i : Fin 8) (off : Nat) (vs : List Byte)
    (b : BankTable) :
    (decodeValues p verbose isRead i off vs b).2.length ≤ vs.length + 6 * (0x16 - off) := by
  induction vs generalizing off b with
  | nil => simp
  | cons v vs ih =>
    rw [decodeValues_cons, List.length_append, List.length_cons]
    have hrest := ih (off + 1) (valueBank isRead i v b (mapLookup p.regMap (bankRead b i) off))
    obtain hone | ⟨hconfig, hseven⟩ :=
      length_valueFields_cases horder verbose off v (mapLookup p.regMap (bankRead b i) off)
    · omega
    · obtain ⟨id, hlookup, hid⟩ := (Option.any_eq_true ..).mp hconfig
      rw [hmap] at hlookup
      have hoff := isConfig_offset_le_of_default hlookup hid
      omega

theorem length_decodePayload_le {p : Params} (hmap : p.regMap = defaultRegMap)
    (horder : p.emitOrder.length = 7) (verbose isRead : Bool) (i : Fin 8) (bytes : List Byte)
    (b : BankTable) :
    (decodePayload p verbose isRead i bytes b).2.length ≤ bytes.length - 1 + 6 * 0x16 := by
  cases bytes with
  | nil => simp
  | cons o vs =>
    have hlength := length_decodeValues_le hmap horder verbose isRead i o.toNat vs b
    rw [decodePayload_cons, List.length_cons]
    omega

/-! ### Which offsets a payload's fields name -/

theorem wordFits_valueFields {p : Params} {off : Nat} (hoff : off < 2 ^ 16) (l : Layout)
    (verbose : Bool) (v : Byte) (id : Option RegId) :
    ∀ f ∈ valueFields p verbose off v id, wordFits (fieldWord l f) = true := by
  cases id with
  | none => simpa [valueFields, fieldWord] using hoff
  | some r =>
    cases hverbose : isConfig r && verbose <;>
      simp [valueFields, hverbose, verboseFields, fieldWord, wordFits]

theorem wordFits_decodeValues (p : Params) (l : Layout) (verbose isRead : Bool) (i : Fin 8) {off : Nat}
    {vs : List Byte} (b : BankTable) (hend : off + vs.length ≤ 2 ^ 16) :
    ∀ f ∈ (decodeValues p verbose isRead i off vs b).2, wordFits (fieldWord l f) = true := by
  induction vs generalizing off b with
  | nil => simp
  | cons v vs ih =>
    rw [List.length_cons] at hend
    rw [decodeValues_cons, List.forall_mem_append]
    exact ⟨wordFits_valueFields (by omega) l verbose v _, ih _ (by omega)⟩

/-- The last offset is at most 0xFF + N - 2 (20_memory.md R52). -/
theorem wordFits_decodePayload (p : Params) (l : Layout) (verbose isRead : Bool) (i : Fin 8)
    {bytes : List Byte} (b : BankTable) (hbytes : bytes.length ≤ 65282) :
    ∀ f ∈ (decodePayload p verbose isRead i bytes b).2, wordFits (fieldWord l f) = true := by
  cases bytes with
  | nil => simp
  | cons o vs =>
    rw [List.length_cons] at hbytes
    have hoffset := o.isLt
    exact wordFits_decodeValues p l verbose isRead i b (by omega)

/-! ### What a completed transaction emits -/

theorem all_wordFits_recordWords_iff (l : Layout) (r : Record) :
    (recordWords l r).all wordFits = true ↔
      r.fields.length < 2 ^ 16 ∧ ∀ f ∈ r.fields, wordFits (fieldWord l f) = true := by
  simp [recordWords_eq]

theorem all_wordFits_decodeTxn {p : Params} (hmap : p.regMap = defaultRegMap)
    (horder : p.emitOrder.length = 7) (verbose : Bool) (i : Fin 8) {txn : Txn} (b : BankTable)
    (hbytes : txn.bytes.length ≤ 65282) :
    (recordWords p.layout (decodeTxn p verbose i txn b).2).all wordFits = true := by
  rw [all_wordFits_recordWords_iff, decodeTxn, recordOf_fields]
  have hcount := length_decodePayload_le hmap horder verbose txn.isRead i txn.bytes b
  exact ⟨by omega, wordFits_decodePayload p p.layout verbose txn.isRead i b hbytes⟩

theorem length_buf_le_of_inv {n : Nat} (hs : s.Inv) (hrs : s.rs = .inTxn)
    (hn : s.params.maxPayload = some n) : s.buf.length ≤ n := by
  obtain ⟨⟨-, -, hfits⟩, -⟩ := (inv_iff_of_inTxn hrs).mp hs
  simpa [hn, payloadFits] using hfits

/-- Settles O40: only the STOP that completes a transaction emits, and its buffer is within the bound. -/
theorem boundedPayloadsFitTheOutputWords : Obligations.BoundedPayloadsFitTheOutputWords := by
  intro ts te s t n hs hmax hn hmap horder h
  obtain ⟨-, rfl⟩ | ⟨-, rfl⟩ | ⟨hrs, startTime, chip, i, -, -, -, rfl⟩ := exec_stop_cases h
  · exact ⟨[], by simp, rfl⟩
  · exact ⟨[], by simp, rfl⟩
  · have hbytes : (s.completedTxn startTime te chip).bytes.length ≤ 65282 :=
      (length_buf_le_of_inv hs hrs hmax).trans hn
    exact ⟨_, finishTxn_output startTime te chip i,
      all_wordFits_decodeTxn hmap horder s.verbose i s.bank hbytes⟩

end Sys2Proof.Machine
end

section
/-! ## Proofs of 30_encoding.md

That timestamps are only copied, what each format's words are as numbers and as fields, how they decode
and encode, what the output rows emit, and what a presented word can make the step do. -/

namespace Sys2Proof.Machine

variable {s t : State}

/-! ### Renaming timestamps -/

/-- Every timestamp of an operation, renamed. -/
def renameInstr (f : Time → Time) : Instr → Instr
  | .start ts te => .start (f ts) (f te)
  | .address read addr ack ts te => .address read addr ack (f ts) (f te)
  | .data byte ts te => .data byte (f ts) (f te)
  | .stop ts te => .stop (f ts) (f te)
  | .reset ib vb => .reset ib vb
  | .recordHeader count isRead trunc chip startTime endTime =>
    .recordHeader count isRead trunc chip (f startTime) (f endTime)
  | .fieldReg id value => .fieldReg id value
  | .fieldUnrec offset value => .fieldUnrec offset value
  | .fieldBit name pos val => .fieldBit name pos val

section Rename

variable (f : Time → Time)

theorem decodeEvent_rename (w : EventWord) (ts te : Time) :
    decodeEvent w (f ts) (f te) = renameInstr f (decodeEvent w ts te) := by
  simp only [decodeEvent, apply_ite (renameInstr f)]
  rfl

theorem decodeHeader_rename (w : OutputWord) (startTime endTime : Time) :
    decodeHeader w (f startTime) (f endTime) =
      (decodeHeader w startTime endTime).map (renameInstr f) := by
  unfold decodeHeader
  split <;> rfl

/-- A field word has no timestamps. -/
theorem decodeField_rename (w : OutputWord) :
    (decodeField w).map (renameInstr f) = decodeField w := by
  cases hd : decodeField w with
  | error e => rfl
  | ok i => obtain ⟨_, _, rfl⟩ | ⟨_, _, rfl⟩ | ⟨_, _, _, rfl⟩ := decodeField_ok hd <;> rfl

theorem decode_renameWord (w : PortWord) :
    decode (renameWord f w) = (decode w).map (renameInstr f) := by
  cases w with
  | evw w ts te => exact congrArg Except.ok (decodeEvent_rename f w ts te)
  | reset ib vb => rfl
  | hw w startTime endTime => exact decodeHeader_rename f w startTime endTime
  | fw w => exact (decodeField_rename f w).symm

theorem timesFit_renameWord {timeWidth : Option Nat}
    (hf : ∀ t, timeFits timeWidth (f t) = timeFits timeWidth t) (w : PortWord) :
    timesFit timeWidth (renameWord f w) = timesFit timeWidth w := by
  cases w <;> simp [timesFit, renameWord, hf]

theorem readWord_renameWord {p : Params}
    (hf : ∀ t, timeFits p.timeWidth (f t) = timeFits p.timeWidth t) (w : PortWord) :
    readWord p (renameWord f w) = (readWord p w).map (renameInstr f) := by
  unfold readWord
  rw [timesFit_renameWord f hf, decode_renameWord]
  split
  · cases decode w <;> rfl
  · rfl

@[simp] theorem renameOut_header (count : Nat) (isRead trunc : Bool) (chip : ChipAddr)
    (startTime endTime : Time) :
    renameOut f (.header count isRead trunc chip startTime endTime) =
      .header count isRead trunc chip (f startTime) (f endTime) := rfl

@[simp] theorem renameOut_fieldWord (l : Layout) (x : Field) :
    renameOut f (fieldWord l x) = fieldWord l x := by
  cases x <;> rfl

/-- Of a record's words only the header has timestamps, the record's own two. -/
theorem map_renameOut_recordWords (l : Layout) (r : Record) :
    (recordWords l r).map (renameOut f) =
      recordWords l { r with startTime := f r.startTime, endTime := f r.endTime } := by
  simp [recordWords_eq]

variable (s)

@[simp] theorem State.rename_rs : (s.rename f).rs = s.rs := rfl
@[simp] theorem State.rename_t0 : (s.rename f).t0 = s.t0.map f := rfl
@[simp] theorem State.rename_chip : (s.rename f).chip = s.chip := rfl
@[simp] theorem State.rename_params : (s.rename f).params = s.params := rfl
@[simp] theorem State.rename_input : (s.rename f).input = s.input.map (renameWord f) := rfl

@[simp] theorem resetToIdle_rename : (s.rename f).resetToIdle = s.resetToIdle.rename f := rfl

@[simp] theorem beginAttempt_rename (ts : Time) :
    (s.rename f).beginAttempt (f ts) = (s.beginAttempt ts).rename f := rfl

@[simp] theorem construct_rename (ib vb : Bool) :
    (s.rename f).construct ib vb = (s.construct ib vb).rename f := rfl

@[simp] theorem addressPhase_rename (read : Bool) (addr : ChipAddr) (ack : Bool) :
    (s.rename f).addressPhase read addr ack = (s.addressPhase read addr ack).rename f := by
  cases ha : accept ack addr
  · simp [addressPhase_of_reject read ha]
  · simp only [addressPhase_of_accept read ha]
    rfl

@[simp] theorem appendData_rename (b : Byte) :
    (s.rename f).appendData b = (s.appendData b).rename f := by
  obtain ⟨hroom, he⟩ | ⟨hfull, he⟩ := appendData_cases s b
  · rw [he, appendData_of_room (s := s.rename f) b hroom]
    rfl
  · rw [he, appendData_of_full (s := s.rename f) b hfull]
    rfl

theorem putWord_rename (w : OutWord) :
    (s.rename f).putWord (renameOut f w) = (s.putWord w).rename f := by
  simp [State.putWord, State.rename]

/-- A completed transaction emits the start time held and STOP's end time (40_reassembler.md R106). -/
@[simp] theorem finishTxn_rename (startTime te : Time) (chip : ChipAddr) (i : Fin 8) :
    (s.rename f).finishTxn (f startTime) (f te) chip i =
      (s.finishTxn startTime te chip i).rename f := by
  simp only [finishTxn_eq, State.rename, List.map_append, map_renameOut_recordWords]
  rfl

theorem execStop_rename (ts te : Time) :
    execStop (f ts) (f te) (s.rename f) = mapNext (State.rename f) (execStop ts te s) := by
  cases hrs : s.rs with
  | idle => simp [execStop, hrs, mapNext]
  | sawStart => simp [execStop, hrs, mapNext]
  | inTxn =>
    cases ht0 : s.t0 with
    | none => simp [execStop, hrs, ht0, mapNext]
    | some startTime =>
      cases hchip : s.chip with
      | none => simp [execStop, hrs, ht0, hchip, mapNext]
      | some chip => cases hi : bankIndex chip <;> simp [execStop, hrs, ht0, hchip, hi, mapNext]

theorem exec_renameInstr (i : Instr) :
    exec (renameInstr f i) (s.rename f) = mapNext (State.rename f) (exec i s) := by
  cases i with
  | start ts te => cases hrs : s.rs <;> simp [renameInstr, exec, execStart, hrs, mapNext]
  | address read addr ack ts te =>
    cases hrs : s.rs
    case inTxn =>
      cases hp : s.params.addrInTxn <;> simp [renameInstr, exec, execAddress, hrs, hp, mapNext]
    all_goals simp [renameInstr, exec, execAddress, hrs, mapNext]
  | data byte ts te => cases hrs : s.rs <;> simp [renameInstr, exec, execData, hrs, mapNext]
  | stop ts te => exact execStop_rename s f ts te
  | reset ib vb => rfl
  | recordHeader count isRead trunc chip startTime endTime =>
    exact congrArg Host.Outcome.next
      (putWord_rename s f (.header count.toNat isRead trunc chip startTime endTime))
  | fieldReg id value => exact congrArg Host.Outcome.next (putWord_rename s f (.reg id value))
  | fieldUnrec offset value =>
    exact congrArg Host.Outcome.next (putWord_rename s f (.unrec offset.toNat value))
  | fieldBit name pos val =>
    exact congrArg Host.Outcome.next (putWord_rename s f (.bit name pos val))

theorem step_rename (hf : ∀ t, timeFits s.params.timeWidth (f t) = timeFits s.params.timeWidth t) :
    step (s.rename f) = mapNext (State.rename f) (step s) := by
  cases hp : paramsAdmissible s.params with
  | false => simp [step, hp, mapNext]
  | true =>
    cases hin : s.input with
    | nil =>
      have hin' : (s.rename f).input = [] := by simp [hin]
      simp [step, hp, takeInput_of_nil hin, takeInput_of_nil hin', mapNext]
    | cons w rest =>
      have hin' : (s.rename f).input = renameWord f w :: rest.map (renameWord f) := by simp [hin]
      simp only [step, State.rename_params, hp, takeInput_of_cons hin, takeInput_of_cons hin',
        if_true, readWord_renameWord f hf]
      cases readWord s.params w with
      | ok i => exact exec_renameInstr { s with input := rest } f i
      | error r => rfl

end Rename

theorem step_keeps_params (h : step s = .next t) : t.params = s.params := by
  obtain ⟨-, ⟨-, rfl⟩ | ⟨w, rest, i, -, -, -, he⟩⟩ := step_cases h
  · rfl
  · obtain ⟨hparams, -⟩ := exec_keeps_model_fields he
    exact hparams

/-- Settles O49: every update copies timestamps, so every operation, step and run commutes with renaming
them; the parameters, which say what TIME is, stay along the run. -/
theorem timestampsAreOnlyCopied : Obligations.TimestampsAreOnlyCopied := by
  intro f k
  induction k with
  | zero => exact fun s hf => rfl
  | succ k ih =>
    intro s hf
    rw [run, run, step_rename s f hf]
    cases hs : step s with
    | next t => exact ih t (by rwa [step_keeps_params hs])
    | fault r => rfl
    | refused r => rfl

/-! ### Fields as numbers -/

theorem toNat_putField {n lo k : Nat} (x : BitVec k) (hfit : lo + k ≤ n := by omega) :
    (putField n lo x).toNat = x.toNat * 2 ^ lo := by
  have hlt : x.toNat * 2 ^ lo < 2 ^ n := calc
    x.toNat * 2 ^ lo < 2 ^ k * 2 ^ lo := Nat.mul_lt_mul_of_pos_right x.isLt (Nat.two_pow_pos lo)
    _ = 2 ^ (lo + k) := by rw [Nat.pow_add, Nat.mul_comm]
    _ ≤ 2 ^ n := Nat.pow_le_pow_right Nat.two_pos hfit
  rw [putField, BitVec.toNat_shiftLeft, BitVec.toNat_setWidth_of_le (by omega), Nat.shiftLeft_eq,
    Nat.mod_eq_of_lt hlt]

/-- A field put below every bit that is set adds its number. -/
theorem toNat_or_putField {n lo k m : Nat} {y : BitVec n} (hy : y.toNat = m) (x : BitVec k)
    (hfit : lo + k ≤ n := by omega) (hlow : 2 ^ (lo + k) ∣ m := by omega) :
    (y ||| putField n lo x).toNat = m + x.toNat * 2 ^ lo := by
  obtain ⟨q, rfl⟩ := hlow
  have hlt : x.toNat * 2 ^ lo < 2 ^ (lo + k) := by
    rw [Nat.pow_add, Nat.mul_comm]
    exact Nat.mul_lt_mul_of_pos_left x.isLt (Nat.two_pow_pos lo)
  rw [BitVec.toNat_or, hy, toNat_putField x hfit, Nat.two_pow_add_eq_or_of_lt hlt]

theorem toNat_extractLsb' {n : Nat} (w : BitVec n) (lo k : Nat) :
    (w.extractLsb' lo k).toNat = w.toNat / 2 ^ lo % 2 ^ k := by
  rw [BitVec.extractLsb'_toNat, Nat.shiftRight_eq_div_pow]

theorem getLsbD_eq_iff {n i : Nat} {w : BitVec n} {b : Bool} :
    w.getLsbD i = b ↔ w.toNat / 2 ^ i % 2 = b.toNat := by
  rw [BitVec.getLsbD, Nat.testBit_eq_decide_div_mod_eq]
  cases b <;> simp

/-! ### The number of each word -/

theorem toNat_typeBits (type : BitVec 2) : (typeBits type).toNat = type.toNat * 2 ^ 10 :=
  toNat_putField type

theorem toNat_addressBits (read : Bool) (addr : ChipAddr) (ack : Bool) :
    (addressBits read addr ack).toNat =
      2 ^ 10 + read.toNat * 2 ^ 9 + ack.toNat * 2 ^ 8 + addr.toNat :=
  Eq.trans (toNat_or_putField (toNat_or_putField (toNat_or_putField (toNat_typeBits 0b01)
      (.ofBool read)) (.ofBool ack)) addr) (by simp)

theorem toNat_dataBits (byte : Byte) :
    (dataBits byte).toNat = 2 ^ 11 + byte.toNat :=
  Eq.trans (toNat_or_putField (toNat_typeBits 0b10) byte) (by simp)

theorem toNat_headerBits (count : BitVec 16) (isRead trunc : Bool) (chip : ChipAddr) :
    (headerBits count isRead trunc chip).toNat =
      count.toNat * 2 ^ 16 + isRead.toNat * 2 ^ 15 + trunc.toNat * 2 ^ 14 + chip.toNat :=
  Eq.trans (toNat_or_putField (toNat_or_putField (toNat_or_putField (toNat_putField count)
      (.ofBool isRead)) (.ofBool trunc)) chip) (by simp)

theorem toNat_regIdCode (id : RegId) :
    id.code.toNat = 2 * id.kind.code.toNat + id.port.code.toNat :=
  Eq.trans (toNat_or_putField (toNat_putField id.kind.code) id.port.code) (by omega)

theorem toNat_fieldRegBits (id : RegId) (value : Byte) :
    (fieldRegBits id value).toNat = id.code.toNat * 2 ^ 16 + value.toNat :=
  Eq.trans (toNat_or_putField (toNat_or_putField (toNat_putField 0b00#2) id.code) value) (by simp)

theorem toNat_fieldUnrecBits (offset : BitVec 16) (value : Byte) :
    (fieldUnrecBits offset value).toNat = 2 ^ 30 + offset.toNat * 2 ^ 8 + value.toNat :=
  Eq.trans (toNat_or_putField (toNat_or_putField (toNat_putField 0b01#2) offset) value) (by simp)

theorem toNat_fieldBitBits (name : IoconBit) (pos : BitVec 3) (val : Bool) :
    (fieldBitBits name pos val).toNat =
      2 ^ 31 + name.code.toNat * 2 ^ 12 + pos.toNat * 2 ^ 8 + val.toNat :=
  Eq.trans (toNat_or_putField (toNat_or_putField (toNat_or_putField (toNat_putField 0b10#2)
      name.code) pos) (.ofBool val)) (by simp)

/-- Settles O20: each word's fields do not overlap, so its number is the sum of its fields'. -/
theorem outputWordsAreTheirNumbers : Obligations.OutputWordsAreTheirNumbers := by
  refine ⟨?_, ?_, ?_, ?_⟩
  · intro count isRead trunc chip startTime endTime hcount
    rw [outWordBits, narrow16_of_lt _ hcount, toNat_headerBits,
      BitVec.toNat_ofNat, Nat.mod_eq_of_lt hcount]
  · intro id value
    rw [outWordBits, toNat_fieldRegBits, toNat_regIdCode]
  · intro offset value hoffset
    rw [outWordBits, narrow16_of_lt _ hoffset, toNat_fieldUnrecBits,
      BitVec.toNat_ofNat, Nat.mod_eq_of_lt hoffset]
  · exact toNat_fieldBitBits

/-! ### A word is its encoding exactly when each field holds its operand and each other bit is 0 -/

theorem eq_typeBits_iff (w : EventWord) (type : BitVec 2) :
    w = typeBits type ↔ w.extractLsb' 10 2 = type ∧ w.extractLsb' 0 10 = 0 := by
  simp only [← BitVec.toNat_inj, toNat_typeBits, toNat_extractLsb', BitVec.ofNat_eq_ofNat,
    BitVec.toNat_ofNat]
  omega

theorem eq_addressBits_iff (w : EventWord) (read : Bool) (addr : ChipAddr) (ack : Bool) :
    w = addressBits read addr ack ↔ w.extractLsb' 10 2 = 0b01#2 ∧ w.getLsbD 9 = read ∧
      w.getLsbD 8 = ack ∧ w.extractLsb' 7 1 = 0 ∧ w.extractLsb' 0 7 = addr := by
  have hread := read.toNat_lt
  have hack := ack.toNat_lt
  simp only [← BitVec.toNat_inj, toNat_addressBits, toNat_extractLsb', getLsbD_eq_iff,
    BitVec.ofNat_eq_ofNat, BitVec.toNat_ofNat]
  omega

theorem eq_dataBits_iff (w : EventWord) (byte : Byte) :
    w = dataBits byte ↔
      w.extractLsb' 10 2 = 0b10#2 ∧ w.extractLsb' 8 2 = 0 ∧ w.extractLsb' 0 8 = byte := by
  simp only [← BitVec.toNat_inj, toNat_dataBits, toNat_extractLsb', BitVec.ofNat_eq_ofNat,
    BitVec.toNat_ofNat]
  omega

theorem eq_headerBits_iff (w : OutputWord) (count : BitVec 16) (isRead trunc : Bool)
    (chip : ChipAddr) :
    w = headerBits count isRead trunc chip ↔ w.extractLsb' 16 16 = count ∧ w.getLsbD 15 = isRead ∧
      w.getLsbD 14 = trunc ∧ w.extractLsb' 7 7 = 0 ∧ w.extractLsb' 0 7 = chip := by
  have hread := isRead.toNat_lt
  have htrunc := trunc.toNat_lt
  simp only [← BitVec.toNat_inj, toNat_headerBits, toNat_extractLsb', getLsbD_eq_iff,
    BitVec.ofNat_eq_ofNat, BitVec.toNat_ofNat]
  omega

theorem eq_fieldRegBits_iff (w : OutputWord) (id : RegId) (value : Byte) :
    w = fieldRegBits id value ↔ w.extractLsb' 30 2 = 0b00#2 ∧ w.extractLsb' 21 9 = 0 ∧
      w.extractLsb' 16 5 = id.code ∧ w.extractLsb' 8 8 = 0 ∧ w.extractLsb' 0 8 = value := by
  simp only [← BitVec.toNat_inj, toNat_fieldRegBits, toNat_extractLsb', BitVec.ofNat_eq_ofNat,
    BitVec.toNat_ofNat]
  omega

theorem eq_fieldUnrecBits_iff (w : OutputWord) (offset : BitVec 16) (value : Byte) :
    w = fieldUnrecBits offset value ↔ w.extractLsb' 30 2 = 0b01#2 ∧ w.extractLsb' 24 6 = 0 ∧
      w.extractLsb' 8 16 = offset ∧ w.extractLsb' 0 8 = value := by
  simp only [← BitVec.toNat_inj, toNat_fieldUnrecBits, toNat_extractLsb', BitVec.ofNat_eq_ofNat,
    BitVec.toNat_ofNat]
  omega

theorem eq_fieldBitBits_iff (w : OutputWord) (name : IoconBit) (pos : BitVec 3) (val : Bool) :
    w = fieldBitBits name pos val ↔ w.extractLsb' 30 2 = 0b10#2 ∧ w.extractLsb' 15 15 = 0 ∧
      w.extractLsb' 12 3 = name.code ∧ w.extractLsb' 11 1 = 0 ∧ w.extractLsb' 8 3 = pos ∧
      w.extractLsb' 1 7 = 0 ∧ w.getLsbD 0 = val := by
  have hval := val.toNat_lt
  simp only [← BitVec.toNat_inj, toNat_fieldBitBits, toNat_extractLsb', getLsbD_eq_iff,
    BitVec.ofNat_eq_ofNat, BitVec.toNat_ofNat]
  omega

/-! ### The codes -/

theorem regIdOfCode_eq_some_iff (c : BitVec 5) (id : RegId) :
    RegId.ofCode c = some id ↔ c = id.code := by
  constructor
  · have htable : ∀ c : BitVec 5, ∀ id ∈ RegId.ofCode c, c = id.code := by decide
    exact htable c id
  · rintro rfl
    obtain ⟨kind, port⟩ := id
    cases kind <;> cases port <;> rfl

theorem exists_regIdCode_iff (c : BitVec 5) : (∃ id : RegId, c = id.code) ↔ c.toNat < 22 := by
  have htable : ∀ c : BitVec 5, (RegId.ofCode c).isSome = true ↔ c.toNat < 22 := by decide
  simp only [← htable, Option.isSome_iff_exists, regIdOfCode_eq_some_iff]

theorem ioconBitOfCode_eq_some_iff (c : BitVec 3) (name : IoconBit) :
    IoconBit.ofCode c = some name ↔ c = name.code := by
  constructor
  · have htable : ∀ c : BitVec 3, ∀ name ∈ IoconBit.ofCode c, c = name.code := by decide
    exact htable c name
  · rintro rfl
    cases name <;> rfl

theorem exists_ioconBitCode_iff (c : BitVec 3) :
    (∃ name : IoconBit, c = name.code) ↔ c.toNat < 7 := by
  have htable : ∀ c : BitVec 3, (IoconBit.ofCode c).isSome = true ↔ c.toNat < 7 := by decide
  simp only [← htable, Option.isSome_iff_exists, ioconBitOfCode_eq_some_iff]

/-! ### What each decoder answers -/

theorem decodeHeader_eq_ok_iff {w : OutputWord} {startTime endTime : Time} {i : Instr} :
    decodeHeader w startTime endTime = .ok i ↔ w.extractLsb' 7 7 = 0 ∧
      .recordHeader (w.extractLsb' 16 16) (w.getLsbD 15) (w.getLsbD 14) (w.extractLsb' 0 7)
        startTime endTime = i := by
  unfold decodeHeader
  split <;> simp_all

theorem decodeFieldReg_eq_ok_iff {w : OutputWord} {i : Instr} :
    decodeFieldReg w = .ok i ↔ w.extractLsb' 21 9 = 0 ∧ w.extractLsb' 8 8 = 0 ∧
      ∃ id : RegId, w.extractLsb' 16 5 = id.code ∧ .fieldReg id (w.extractLsb' 0 8) = i := by
  simp only [← regIdOfCode_eq_some_iff]
  unfold decodeFieldReg
  split
  case isTrue h => obtain h | h := h <;> simp_all
  case isFalse h => cases RegId.ofCode (w.extractLsb' 16 5) <;> simp_all

theorem decodeFieldUnrec_eq_ok_iff {w : OutputWord} {i : Instr} :
    decodeFieldUnrec w = .ok i ↔
      w.extractLsb' 24 6 = 0 ∧ .fieldUnrec (w.extractLsb' 8 16) (w.extractLsb' 0 8) = i := by
  unfold decodeFieldUnrec
  split <;> simp_all

theorem decodeFieldBit_eq_ok_iff {w : OutputWord} {i : Instr} :
    decodeFieldBit w = .ok i ↔ w.extractLsb' 15 15 = 0 ∧ w.extractLsb' 11 1 = 0 ∧
      w.extractLsb' 1 7 = 0 ∧ w.extractLsb' 8 3 ≠ 0 ∧
      ∃ name : IoconBit, w.extractLsb' 12 3 = name.code ∧
        .fieldBit name (w.extractLsb' 8 3) (w.getLsbD 0) = i := by
  simp only [← ioconBitOfCode_eq_some_iff]
  unfold decodeFieldBit
  split
  case isTrue h => obtain h | h | h := h <;> simp_all
  case isFalse h =>
    split
    · simp_all
    · cases IoconBit.ofCode (w.extractLsb' 12 3) <;> simp_all

/-- A field word decodes as its KIND says (30_encoding.md R80). -/
theorem decodeField_eq_ok_iff {w : OutputWord} {i : Instr} :
    decodeField w = .ok i ↔
      (w.extractLsb' 30 2 = 0b00#2 ∧ decodeFieldReg w = .ok i) ∨
      (w.extractLsb' 30 2 = 0b01#2 ∧ decodeFieldUnrec w = .ok i) ∨
      (w.extractLsb' 30 2 = 0b10#2 ∧ decodeFieldBit w = .ok i) := by
  unfold decodeField
  split
  · simp_all
  · split
    · simp_all
    · split <;> simp_all

/-- 30_encoding.md R84, 93_implementation_defined.md U3: the fields that make a field word legal. -/
theorem exists_decodeField_eq_ok_iff (w : OutputWord) :
    (∃ i, decodeField w = .ok i) ↔
      (w.extractLsb' 30 2 = 0b00#2 ∧ w.extractLsb' 21 9 = 0 ∧ w.extractLsb' 8 8 = 0 ∧
        (w.extractLsb' 16 5).toNat < 22) ∨
      (w.extractLsb' 30 2 = 0b01#2 ∧ w.extractLsb' 24 6 = 0) ∨
      (w.extractLsb' 30 2 = 0b10#2 ∧ w.extractLsb' 15 15 = 0 ∧ w.extractLsb' 11 1 = 0 ∧
        w.extractLsb' 1 7 = 0 ∧ w.extractLsb' 8 3 ≠ 0 ∧ (w.extractLsb' 12 3).toNat < 7) := by
  simp only [decodeField_eq_ok_iff, decodeFieldReg_eq_ok_iff, decodeFieldUnrec_eq_ok_iff,
    decodeFieldBit_eq_ok_iff, ← exists_regIdCode_iff, ← exists_ioconBitCode_iff, exists_or,
    exists_and_left]
  rw [exists_comm (α := Instr) (β := RegId)]
  simp

/-- Settles O19: the fields that make a header or field word legal, as numbers. -/
theorem outputWordsLegalExactlyByTheirFields : Obligations.OutputWordsLegalExactlyByTheirFields := by
  constructor
  · intro w startTime endTime
    simp only [decode, decodeHeader_eq_ok_iff, exists_and_left, exists_eq', and_true,
      ← BitVec.toNat_inj, toNat_extractLsb', BitVec.ofNat_eq_ofNat, BitVec.toNat_ofNat, Nat.zero_mod]
  · intro w
    simp only [decode, exists_decodeField_eq_ok_iff, ne_eq, ← BitVec.toNat_inj, toNat_extractLsb',
      BitVec.ofNat_eq_ofNat, BitVec.toNat_ofNat]
    omega

/-! ### Output words and their encodings -/

theorem decodeHeader_eq_recordHeader_iff {w : OutputWord} {count : BitVec 16} {isRead trunc : Bool}
    {chip : ChipAddr} {startTime endTime : Time} :
    decodeHeader w startTime endTime = .ok (.recordHeader count isRead trunc chip startTime endTime) ↔
      w = headerBits count isRead trunc chip := by
  rw [decodeHeader_eq_ok_iff, eq_headerBits_iff]
  simp only [Instr.recordHeader.injEq]
  tauto

theorem decodeField_eq_fieldReg_iff {w : OutputWord} {id : RegId} {value : Byte} :
    decodeField w = .ok (.fieldReg id value) ↔ w = fieldRegBits id value := by
  rw [eq_fieldRegBits_iff, decodeField_eq_ok_iff, decodeFieldReg_eq_ok_iff,
    decodeFieldUnrec_eq_ok_iff, decodeFieldBit_eq_ok_iff]
  grind

theorem decodeField_eq_fieldUnrec_iff {w : OutputWord} {offset : BitVec 16} {value : Byte} :
    decodeField w = .ok (.fieldUnrec offset value) ↔ w = fieldUnrecBits offset value := by
  rw [eq_fieldUnrecBits_iff, decodeField_eq_ok_iff, decodeFieldReg_eq_ok_iff,
    decodeFieldUnrec_eq_ok_iff, decodeFieldBit_eq_ok_iff]
  grind

theorem decodeField_eq_fieldBit_iff {w : OutputWord} {name : IoconBit} {pos : BitVec 3} {val : Bool} :
    decodeField w = .ok (.fieldBit name pos val) ↔ pos ≠ 0 ∧ w = fieldBitBits name pos val := by
  rw [eq_fieldBitBits_iff, decodeField_eq_ok_iff, decodeFieldReg_eq_ok_iff,
    decodeFieldUnrec_eq_ok_iff, decodeFieldBit_eq_ok_iff]
  grind

/-! ### Event words and their encodings -/

section EventWords

variable {w : EventWord} (ts te : Time)

theorem decodeEvent_of_type_start (h : w.extractLsb' 10 2 = 0b00#2) :
    decodeEvent w ts te = .start ts te := by
  simp [decodeEvent, h]

theorem decodeEvent_of_type_address (h : w.extractLsb' 10 2 = 0b01#2) :
    decodeEvent w ts te =
      .address (w.getLsbD 9) (w.extractLsb' 0 7) (w.getLsbD 8) ts te := by
  simp [decodeEvent, h]

theorem decodeEvent_of_type_data (h : w.extractLsb' 10 2 = 0b10#2) :
    decodeEvent w ts te = .data (w.extractLsb' 0 8) ts te := by
  simp [decodeEvent, h]

theorem decodeEvent_of_type_stop (h : w.extractLsb' 10 2 = 0b11#2) :
    decodeEvent w ts te = .stop ts te := by
  simp [decodeEvent, h]

end EventWords

theorem type_cases (type : BitVec 2) :
    type = 0b00#2 ∨ type = 0b01#2 ∨ type = 0b10#2 ∨ type = 0b11#2 := by
  revert type
  decide

theorem type_eq_iff (w : EventWord) (type : BitVec 2) :
    w.extractLsb' 10 2 = type ↔ w.toNat / 2 ^ 10 = type.toNat := by
  rw [← BitVec.toNat_inj, toNat_extractLsb']
  omega

/-- Settles O16: the TYPE chooses the event, and an operand is its field's number. -/
theorem everyEventWordDecodesByItsFields : Obligations.EveryEventWordDecodesByItsFields := by
  intro w ts te
  refine ⟨fun htype => ?_, fun htype => ?_, fun htype => ?_, fun htype => ?_⟩
  · exact congrArg Except.ok (decodeEvent_of_type_start ts te ((type_eq_iff w 0b00#2).mpr htype))
  · exact ⟨_, _, _,
      congrArg Except.ok (decodeEvent_of_type_address ts te ((type_eq_iff w 0b01#2).mpr htype)),
      getLsbD_eq_iff, getLsbD_eq_iff, by simp⟩
  · exact ⟨_, congrArg Except.ok (decodeEvent_of_type_data ts te ((type_eq_iff w 0b10#2).mpr htype)),
      by simp⟩
  · exact congrArg Except.ok (decodeEvent_of_type_stop ts te ((type_eq_iff w 0b11#2).mpr htype))

theorem decodeEvent_addressBits (read : Bool) (addr : ChipAddr) (ack : Bool) (ts te : Time) :
    decodeEvent (addressBits read addr ack) ts te = .address read addr ack ts te := by
  obtain ⟨htype, hread, hack, -, haddr⟩ := (eq_addressBits_iff _ read addr ack).mp rfl
  rw [decodeEvent_of_type_address ts te htype, hread, hack, haddr]

theorem decodeEvent_dataBits (byte : Byte) (ts te : Time) :
    decodeEvent (dataBits byte) ts te = .data byte ts te := by
  obtain ⟨htype, -, hbyte⟩ := (eq_dataBits_iff _ byte).mp rfl
  rw [decodeEvent_of_type_data ts te htype, hbyte]

/-- Settles O17: each format's decoder finds every operand in its field of the encoder's word. -/
theorem decodeOfEncodeIsTheOperation : Obligations.DecodeOfEncodeIsTheOperation := by
  intro i hwf
  cases i with
  | start ts te => exact congrArg Except.ok (decodeEvent_of_type_start ts te (by decide))
  | address read addr ack ts te =>
    exact congrArg Except.ok (decodeEvent_addressBits read addr ack ts te)
  | data byte ts te => exact congrArg Except.ok (decodeEvent_dataBits byte ts te)
  | stop ts te => exact congrArg Except.ok (decodeEvent_of_type_stop ts te (by decide))
  | reset ib vb => rfl
  | recordHeader => exact decodeHeader_eq_recordHeader_iff.mpr rfl
  | fieldReg => exact decodeField_eq_fieldReg_iff.mpr rfl
  | fieldUnrec => exact decodeField_eq_fieldUnrec_iff.mpr rfl
  | fieldBit name pos val =>
    exact decodeField_eq_fieldBit_iff.mpr ⟨by simpa [Instr.wellFormed] using hwf, rfl⟩

/-! ### The bits of an event word that are read -/

theorem extractLsb'_and_of_ones {n lo k : Nat} {mask : BitVec n} (w : BitVec n)
    (h : mask.extractLsb' lo k = BitVec.allOnes k) :
    (w &&& mask).extractLsb' lo k = w.extractLsb' lo k := by
  rw [BitVec.extractLsb'_and, h, BitVec.and_allOnes]

theorem extractLsb'_and_of_zeros {n lo k : Nat} {mask : BitVec n} (w : BitVec n)
    (h : mask.extractLsb' lo k = 0) : (w &&& mask).extractLsb' lo k = 0 := by
  rw [BitVec.extractLsb'_and, h]
  exact BitVec.and_zero

theorem readBits_of_type_address {w : EventWord} (h : w.extractLsb' 10 2 = 0b01#2) :
    readBits w = addressBits (w.getLsbD 9) (w.extractLsb' 0 7) (w.getLsbD 8) := by
  rw [readBits, if_pos h, eq_addressBits_iff]
  exact ⟨(extractLsb'_and_of_ones w (by decide)).trans h, by simp, by simp,
    extractLsb'_and_of_zeros w (by decide), extractLsb'_and_of_ones w (by decide)⟩

theorem readBits_of_type_data {w : EventWord} (h : w.extractLsb' 10 2 = 0b10#2) :
    readBits w = dataBits (w.extractLsb' 0 8) := by
  rw [readBits, if_neg (by simp [h]), if_pos h, eq_dataBits_iff]
  exact ⟨(extractLsb'_and_of_ones w (by decide)).trans h, extractLsb'_and_of_zeros w (by decide),
    extractLsb'_and_of_ones w (by decide)⟩

/-- START and STOP read no bit but their TYPE (30_encoding.md R74). -/
theorem readBits_of_type_other {w : EventWord} (haddress : w.extractLsb' 10 2 ≠ 0b01#2)
    (hdata : w.extractLsb' 10 2 ≠ 0b10#2) : readBits w = typeBits (w.extractLsb' 10 2) := by
  rw [readBits, if_neg haddress, if_neg hdata, eq_typeBits_iff]
  exact ⟨extractLsb'_and_of_ones w (by decide), extractLsb'_and_of_zeros w (by decide)⟩

/-- 30_encoding.md R77: the event of a word re-encodes to the word without its reserved bits. -/
theorem encode_decodeEvent (w : EventWord) (ts te : Time) :
    encode (decodeEvent w ts te) = .evw (readBits w) ts te := by
  obtain htype | htype | htype | htype := type_cases (w.extractLsb' 10 2)
  · rw [decodeEvent_of_type_start ts te htype,
      readBits_of_type_other (by simp [htype]) (by simp [htype]), htype]
    rfl
  · rw [decodeEvent_of_type_address ts te htype, readBits_of_type_address htype, encode]
  · rw [decodeEvent_of_type_data ts te htype, readBits_of_type_data htype, encode]
  · rw [decodeEvent_of_type_stop ts te htype,
      readBits_of_type_other (by simp [htype]) (by simp [htype]), htype]
    rfl

theorem wellFormed_of_isEvent {i : Instr} (h : isEvent i = true) : i.wellFormed = true := by
  cases i with
  | fieldBit => simp [isEvent] at h
  | _ => rfl

/-- Settles O18: a header or field word that decodes is the encoder's word of the operation it decodes
to. -/
theorem encodeOfDecodeIsTheWord : Obligations.EncodeOfDecodeIsTheWord := by
  refine ⟨?_, ?_, ?_⟩
  · exact fun w ts te => ⟨_, rfl, wellFormed_of_isEvent (isEvent_decodeEvent w ts te),
      encode_decodeEvent w ts te⟩
  · intro w startTime endTime i h
    obtain ⟨count, isRead, trunc, chip, rfl⟩ := decodeHeader_ok h
    obtain rfl := decodeHeader_eq_recordHeader_iff.mp h
    exact ⟨rfl, rfl⟩
  · intro w i h
    obtain ⟨id, value, rfl⟩ | ⟨offset, value, rfl⟩ | ⟨name, pos, val, rfl⟩ := decodeField_ok h
    · obtain rfl := decodeField_eq_fieldReg_iff.mp h
      exact ⟨rfl, rfl⟩
    · obtain rfl := decodeField_eq_fieldUnrec_iff.mp h
      exact ⟨rfl, rfl⟩
    · obtain ⟨hpos, rfl⟩ := decodeField_eq_fieldBit_iff.mp h
      exact ⟨by simpa [Instr.wellFormed] using hpos, rfl⟩

/-- Settles O15: the words written out from the layouts, one by one. -/
theorem writtenOutWordsDecode : Obligations.WrittenOutWordsDecode := by
  unfold Obligations.WrittenOutWordsDecode
  decide

/-! ### What the output rows emit -/

/-- Settles O7: each output row is one word put on the port. -/
theorem outputRowsPassTheirWord : Obligations.OutputRowsPassTheirWord :=
  ⟨fun _ _ _ _ _ _ _ => rfl, fun _ _ _ => rfl, fun _ _ _ => rfl, fun _ _ _ _ => rfl⟩

/-- Settles O22: a BIT word takes the position from its name's own entry of the layout. -/
theorem fieldWordsCarryTheirField : Obligations.FieldWordsCarryTheirField :=
  ⟨fun _ _ _ => rfl, fun _ _ _ => rfl, fun _ _ => ⟨rfl, rfl, rfl, rfl, rfl, rfl, rfl⟩⟩

/-- A word whose count or offset fits is passed as it is by the row it is (log 10). -/
theorem exec_wordInstr {w : OutWord} (hw : wordFits w = true) :
    exec (wordInstr w) s = .next (s.putWord w) := by
  cases w with
  | header count isRead trunc chip startTime endTime =>
    have hcount : count < 2 ^ 16 := by simpa using hw
    simp only [wordInstr, exec, execRecordHeader, BitVec.toNat_ofNat, Nat.mod_eq_of_lt hcount]
  | reg id value => rfl
  | unrec offset value =>
    have hoffset : offset < 2 ^ 16 := by simpa using hw
    simp only [wordInstr, exec, execFieldUnrec, BitVec.toNat_ofNat, Nat.mod_eq_of_lt hoffset]
  | bit name pos value => rfl

theorem execAll_map_wordInstr {ws : List OutWord} (hws : ws.all wordFits = true) :
    execAll (ws.map wordInstr) s = .next (ws.foldl State.putWord s) := by
  induction ws generalizing s with
  | nil => rfl
  | cons w ws ih =>
    obtain ⟨hw, hws⟩ := Bool.and_eq_true_iff.mp hws
    simp [execAll, exec_wordInstr hw, ih hws]

/-- Settles O39: emitting puts the record's words on the port one after another, as their rows do. -/
theorem emitRunsTheOutputRowsInOrder : Obligations.EmitRunsTheOutputRowsInOrder :=
  fun _ _ => execAll_map_wordInstr

/-- Settles O38: a record's header opens it and closes the record before, and counts the record's fields,
of which each is one word. -/
theorem emittedWordsReadBackAsTheRecord : Obligations.EmittedWordsReadBackAsTheRecord := by
  refine ⟨?_, ?_⟩
  · exact fun l ws r => recordsOf_append_recordWords l r ws
  · exact fun l r => ⟨r.fields.map (fieldWord l), by rw [recordWords_eq, List.length_map]⟩

/-! ### When an operation or a step does nothing, refuses or runs -/

/-- Settles O9: ADDRESS, DATA and STOP each answer the state itself in IDLE. -/
theorem idleIgnoresEveryEventButStart : Obligations.IdleIgnoresEveryEventButStart := by
  intro i s hrs hevent hstart
  cases i with
  | start ts te => exact absurd rfl (hstart ts te)
  | address => simp [exec, execAddress, hrs]
  | data => simp [exec, execData, hrs]
  | stop => simp [exec, execStop, hrs]
  | reset | recordHeader | fieldReg | fieldUnrec | fieldBit => simp [isEvent] at hevent

/-- Every operation has a meaning. -/
theorem exec_ne_refused (i : Instr) (r : Refusal) : exec i s ≠ .refused r := by
  cases i with
  | start => cases hrs : s.rs <;> simp [exec, execStart, hrs]
  | address =>
    cases hrs : s.rs <;> cases hp : s.params.addrInTxn <;> simp [exec, execAddress, hrs, hp]
  | data => cases hrs : s.rs <;> simp [exec, execData, hrs]
  | stop =>
    cases hrs : s.rs with
    | idle => simp [exec, execStop, hrs]
    | sawStart => simp [exec, execStop, hrs]
    | inTxn =>
      cases ht0 : s.t0 with
      | none => simp [exec, execStop, hrs, ht0]
      | some startTime =>
        cases hchip : s.chip with
        | none => simp [exec, execStop, hrs, ht0, hchip]
        | some chip => cases hi : bankIndex chip <;> simp [exec, execStop, hrs, ht0, hchip, hi]
  | reset | recordHeader | fieldReg | fieldUnrec | fieldBit =>
    intro h
    cases h

theorem step_of_inadmissible (hp : paramsAdmissible s.params = false) :
    step s = .refused .inadmissibleParams := by
  simp [step, hp]

theorem step_of_readWord_ok {w : PortWord} {rest : List PortWord} {i : Instr}
    (hp : paramsAdmissible s.params = true) (hin : s.input = w :: rest)
    (hr : readWord s.params w = .ok i) : step s = exec i { s with input := rest } := by
  simp [step, hp, takeInput_of_cons hin, hr]

theorem step_of_readWord_error {w : PortWord} {rest : List PortWord} {r : Refusal}
    (hp : paramsAdmissible s.params = true) (hin : s.input = w :: rest)
    (hr : readWord s.params w = .error r) : step s = .refused r := by
  simp [step, hp, takeInput_of_cons hin, hr]

theorem readWord_of_times_outside {p : Params} {w : PortWord} (ht : timesFit p.timeWidth w = false) :
    readWord p w = .error .timestampOutsideTime := by
  simp [readWord, ht]

theorem readWord_of_decode_error {p : Params} {w : PortWord} {e : DecodeError}
    (ht : timesFit p.timeWidth w = true) (hd : decode w = .error e) :
    readWord p w = .error (.reservedWord e) := by
  simp [readWord, ht, hd]

/-- 30_encoding.md R77: no word that the host may present is reserved. -/
theorem hostWord_of_decode_error {w : PortWord} {e : DecodeError} (hd : decode w = .error e) :
    hostWord w = false := by
  by_contra h
  obtain ⟨i, hi, -⟩ := decode_of_hostWord (Bool.of_not_eq_false h)
  simp [hd] at hi

/-- Everything a refused step can be: the parameters, or the reading of the word presented first. -/
theorem step_refused_cases {r : Refusal} (h : step s = .refused r) :
    (paramsAdmissible s.params = false ∧ r = .inadmissibleParams) ∨
      ∃ w rest, s.input = w :: rest ∧ readWord s.params w = .error r := by
  cases hp : paramsAdmissible s.params with
  | false =>
    rw [step_of_inadmissible hp] at h
    cases h
    exact .inl ⟨rfl, rfl⟩
  | true =>
    cases hin : s.input with
    | nil => simp [step, hp, takeInput_of_nil hin] at h
    | cons w rest =>
      cases hr : readWord s.params w with
      | ok i =>
        rw [step_of_readWord_ok hp hin hr] at h
        exact absurd h (exec_ne_refused i r)
      | error r' =>
        rw [step_of_readWord_error hp hin hr] at h
        cases h
        exact .inr ⟨w, rest, rfl, hr⟩

/-- Settles O13: operations refuse nothing, so a refusal is that of the parameters or of the reading of
a word. -/
theorem stepRefusesOnlyForTheNamedReasons : Obligations.StepRefusesOnlyForTheNamedReasons := by
  intro s
  refine ⟨step_of_inadmissible, ?_, ?_, ?_⟩
  · exact fun w rest hp hin ht => step_of_readWord_error hp hin (readWord_of_times_outside ht)
  · exact fun w rest e hp hin ht hd =>
      ⟨step_of_readWord_error hp hin (readWord_of_decode_error ht hd), hostWord_of_decode_error hd⟩
  · intro r h
    obtain hparams | ⟨w, rest, hin, hr⟩ := step_refused_cases h
    · exact .inl hparams
    · refine .inr ⟨w, rest, hin, ?_⟩
      obtain ⟨i, -, -, hr'⟩ | ⟨e, -, hd, hr'⟩ | ⟨ht, hr'⟩ := readWord_cases s.params w <;>
        cases hr.symm.trans hr'
      · exact .inr ⟨e, hd, rfl, hostWord_of_decode_error hd⟩
      · exact .inl ⟨ht, rfl⟩

/-- Table words have timestamps 0. -/
theorem timesFit_of_tableWord {nbits w : Nat} {p : PortWord} (timeWidth : Option Nat)
    (h : tableWord nbits w = some p) : timesFit timeWidth p = true := by
  have hformat (v : OutputWord) : timesFit timeWidth (outputFormat v) = true := by
    unfold outputFormat
    split
    · split <;> simp [timesFit]
    · simp [timesFit]
    · simp [timesFit]
  unfold tableWord at h
  split at h
  · split at h <;> cases h
    rfl
  · split at h
    · split at h <;> cases h
      simp [timesFit]
    · split at h <;> cases h
      exact hformat _

theorem decodeTableWord_eq_some_iff {nbits w : Nat} {i : Instr} :
    decodeTableWord nbits w = some i ↔ ∃ p, tableWord nbits w = some p ∧ decode p = .ok i := by
  unfold decodeTableWord
  cases tableWord nbits w with
  | none => simp
  | some p => cases hd : decode p <;> simp [hd]

/-- Settles O14: the table word is presented first, with timestamps 0, which every TIME has. -/
theorem placedTableWordRunsNext : Obligations.PlacedTableWordRunsNext := by
  intro nbits w i s hp hdecode
  obtain ⟨p, htable, hd⟩ := decodeTableWord_eq_some_iff.mp hdecode
  have hplaced : s.withFetchWord nbits w = s.present p := by simp [State.withFetchWord, htable]
  rw [hplaced]
  exact step_of_readWord_ok hp rfl (readWord_of_decode (timesFit_of_tableWord _ htable) hd)

end Sys2Proof.Machine
end

section
/-! ## Proofs of 40_reassembler.md

What each event does in each state, what the events and a host-driven run emit, and what the run over one
whole attempt leaves. -/

namespace Sys2Proof.Machine

variable {s t u : State}

/-! ### The window and the bank index -/

theorem accept_eq_true_iff_toNat (ack : Bool) (a : ChipAddr) :
    accept ack a = true ↔ ack = true ∧ 0x20 ≤ a.toNat ∧ a.toNat ≤ 0x27 := by
  rw [accept_eq_true_iff, inWindow_eq_true_iff]

/-- 10_state.md R29: the index is the distance from the window's base, and only the window has one. -/
theorem bankIndex_eq_some_iff (a : ChipAddr) (i : Fin 8) :
    bankIndex a = some i ↔ i.val + 0x20 = a.toNat := by
  constructor
  · intro h
    obtain ⟨j, hj, hval⟩ := bankIndex_of_inWindow (inWindow_of_bankIndex h)
    cases h.symm.trans hj
    exact hval
  · intro h
    have hwindow : inWindow a = true := (inWindow_eq_true_iff a).mpr (by omega)
    obtain ⟨j, hj, hval⟩ := bankIndex_of_inWindow hwindow
    obtain rfl : i = j := by omega
    exact hj

/-- Settles O23: the window starts at a multiple of its size 8, so the bits 6:3 say the block of 8 and the
bits 2:0 the place in it. -/
theorem windowAndIndexAreAddressBits : Obligations.WindowAndIndexAreAddressBits := by
  intro a
  have hlt : a.toNat < 2 ^ 7 := a.isLt
  refine ⟨?_, fun ack => accept_eq_true_iff_toNat ack a, fun i => ?_⟩
  · rw [inWindow_eq_true_iff, ← BitVec.toNat_inj, toNat_extractLsb', BitVec.toNat_ofNat]
    omega
  · rw [bankIndex_eq_some_iff, inWindow_eq_true_iff, toNat_extractLsb']
    omega

/-! ### What a completed transaction leaves -/

@[simp] theorem finishTxn_initBank (startTime te : Time) (chip : ChipAddr) (i : Fin 8) :
    (s.finishTxn startTime te chip i).initBank = s.initBank := by
  simp [finishTxn_eq]

@[simp] theorem finishTxn_verbose (startTime te : Time) (chip : ChipAddr) (i : Fin 8) :
    (s.finishTxn startTime te chip i).verbose = s.verbose := by
  simp [finishTxn_eq]

@[simp] theorem finishTxn_input (startTime te : Time) (chip : ChipAddr) (i : Fin 8) :
    (s.finishTxn startTime te chip i).input = s.input := by
  simp [finishTxn_eq]

/-- 41_register_decoder.md R158: the words of the record, written out. -/
theorem finishTxn_output_eq_header_fields (startTime te : Time) (chip : ChipAddr) (i : Fin 8) :
    (s.finishTxn startTime te chip i).output = s.output ++
      .header (decodePayload s.params s.verbose s.rd i s.buf s.bank).2.length s.rd s.trunc chip
        startTime te ::
      (decodePayload s.params s.verbose s.rd i s.buf s.bank).2.map (fieldWord s.params.layout) := by
  rw [finishTxn_output]
  rfl

/-! ### What each event does in each state -/

theorem exec_start_of_sawStart (hrs : s.rs = .sawStart) (ts te : Time) :
    exec (.start ts te) s = .next s.resetToIdle := by
  simp [exec, execStart, hrs]

theorem exec_start_of_ne_sawStart (hrs : s.rs ≠ .sawStart) (ts te : Time) :
    exec (.start ts te) s = .next (s.beginAttempt ts) := by
  cases h : s.rs with
  | sawStart => exact absurd h hrs
  | idle | inTxn => simp [exec, execStart, h]

/-- The states in which ADDRESS is an address phase are those in which it is not ignored. -/
theorem address_not_ignored_iff :
    s.rs = .sawStart ∨ (s.rs = .inTxn ∧ s.params.addrInTxn = .rephase) ↔
      ¬(s.rs = .idle ∨ (s.rs = .inTxn ∧ s.params.addrInTxn = .ignore)) := by
  cases s.rs <;> cases s.params.addrInTxn <;> simp

theorem exec_address_of_ignored
    (h : s.rs = .idle ∨ (s.rs = .inTxn ∧ s.params.addrInTxn = .ignore))
    (read : Bool) (addr : ChipAddr) (ack : Bool) (ts te : Time) :
    exec (.address read addr ack ts te) s = .next s := by
  obtain hrs | ⟨hrs, hpolicy⟩ := h
  · simp [exec, execAddress, hrs]
  · simp [exec, execAddress, hrs, hpolicy]

theorem exec_address_of_phase
    (h : s.rs = .sawStart ∨ (s.rs = .inTxn ∧ s.params.addrInTxn = .rephase))
    (read : Bool) (addr : ChipAddr) (ack : Bool) (ts te : Time) :
    exec (.address read addr ack ts te) s = .next (s.addressPhase read addr ack) := by
  obtain hrs | ⟨hrs, hpolicy⟩ := h
  · simp [exec, execAddress, hrs]
  · simp [exec, execAddress, hrs, hpolicy]

theorem exec_data_of_sawStart (hrs : s.rs = .sawStart) (byte : Byte) (ts te : Time) :
    exec (.data byte ts te) s = .next s.resetToIdle := by
  simp [exec, execData, hrs]

theorem exec_data_of_inTxn (hrs : s.rs = .inTxn) (byte : Byte) (ts te : Time) :
    exec (.data byte ts te) s = .next (s.appendData byte) := by
  simp [exec, execData, hrs]

theorem exec_stop_of_sawStart (hrs : s.rs = .sawStart) (ts te : Time) :
    exec (.stop ts te) s = .next s.resetToIdle := by
  simp [exec, execStop, hrs]

theorem exec_stop_of_parts {startTime : Time} {chip : ChipAddr} {i : Fin 8} (hrs : s.rs = .inTxn)
    (ht0 : s.t0 = some startTime) (hchip : s.chip = some chip) (hi : bankIndex chip = some i)
    (ts te : Time) :
    exec (.stop ts te) s = .next (s.finishTxn startTime te chip i) := by
  simp [exec, execStop, hrs, ht0, hchip, hi]

/-- In IN_TXN the invariant gives STOP every part of the transaction. -/
theorem exec_stop_of_inv (hs : s.Inv) (hrs : s.rs = .inTxn) (ts te : Time) :
    ∃ startTime chip i, s.t0 = some startTime ∧ s.chip = some chip ∧ i.val + 0x20 = chip.toNat ∧
      exec (.stop ts te) s = .next (s.finishTxn startTime te chip i) := by
  obtain ⟨⟨ht0, hchip, -⟩, -⟩ := (inv_iff_of_inTxn hrs).mp hs
  obtain ⟨startTime, ht0⟩ := Option.isSome_iff_exists.mp ht0
  obtain ⟨chip, hchip, hwindow⟩ := (Option.any_eq_true _ _).mp hchip
  obtain ⟨i, hi, hval⟩ := bankIndex_of_inWindow hwindow
  exact ⟨startTime, chip, i, ht0, hchip, hval, exec_stop_of_parts hrs ht0 hchip hi ts te⟩

/-- Settles O2: only SAW_START takes a START as an abort. -/
theorem startBeginsAnAttemptOrAborts : Obligations.StartBeginsAnAttemptOrAborts := by
  intro ts te s
  by_cases hrs : s.rs = .sawStart
  · exact ⟨_, exec_start_of_sawStart hrs ts te,
      by simp [hrs, State.TransientCleared, State.SameOutsideReassembler]⟩
  · exact ⟨_, exec_start_of_ne_sawStart hrs ts te, by simp [hrs, State.SameOutsideReassembler]⟩

/-- Settles O3: an ADDRESS that is not ignored is an address phase, which acceptance opens or aborts. -/
theorem addressOpensAbortsOrIsIgnored : Obligations.AddressOpensAbortsOrIsIgnored := by
  intro read addr ack ts te s
  rw [address_not_ignored_iff, ← accept_eq_true_iff_toNat]
  by_cases hignored : s.rs = .idle ∨ (s.rs = .inTxn ∧ s.params.addrInTxn = .ignore)
  · exact ⟨s, exec_address_of_ignored hignored read addr ack ts te, fun _ => rfl,
      fun h => absurd hignored h, by simp [State.SameOutsideReassembler]⟩
  · refine ⟨_, exec_address_of_phase (address_not_ignored_iff.mpr hignored) read addr ack ts te,
      fun h => absurd h hignored, ?_⟩
    cases ha : accept ack addr with
    | true =>
      simp [addressPhase_of_accept read ha, accumulateDirection, State.SameOutsideReassembler]
    | false =>
      simp [addressPhase_of_reject read ha, State.TransientCleared, State.SameOutsideReassembler]

/-- Settles O4: in IN_TXN the byte is appended or dropped as the buffer has room or is full. -/
theorem dataAppendsTruncatesAbortsOrIsIgnored :
    Obligations.DataAppendsTruncatesAbortsOrIsIgnored := by
  intro byte ts te s
  cases hrs : s.rs with
  | idle =>
    have hexec := idleIgnoresEveryEventButStart (.data byte ts te) s hrs rfl (by simp)
    exact ⟨s, hexec, by simp [State.SameOutsideReassembler]⟩
  | sawStart => exact ⟨_, exec_data_of_sawStart hrs byte ts te,
      by simp [State.TransientCleared, State.SameOutsideReassembler]⟩
  | inTxn =>
    refine ⟨_, exec_data_of_inTxn hrs byte ts te, ?_⟩
    cases hmax : s.params.maxPayload with
    | none =>
      have hfull : bufFull s.params.maxPayload s.buf = false := by simp [hmax]
      simp [appendData_of_room byte hfull, hrs, State.SameOutsideReassembler]
    | some n =>
      by_cases hroom : s.buf.length < n
      · have hfull : bufFull s.params.maxPayload s.buf = false := by simp [hmax, hroom]
        simp [appendData_of_room byte hfull, hrs, hroom, State.SameOutsideReassembler]
      · have hfull : bufFull s.params.maxPayload s.buf = true := by simpa [hmax] using hroom
        simp [appendData_of_full byte hfull, hrs, hroom, State.SameOutsideReassembler]

/-- Settles O5: the invariant gives a STOP in IN_TXN its start time, its chip and the chip's index. -/
theorem stopEmitsTheDecodedTransaction : Obligations.StopEmitsTheDecodedTransaction := by
  intro ts te s hs
  cases hrs : s.rs with
  | idle =>
    have hexec := idleIgnoresEveryEventButStart (.stop ts te) s hrs rfl (by simp)
    exact ⟨s, hexec, by simp [State.SameOutsideReassembler]⟩
  | sawStart => exact ⟨_, exec_stop_of_sawStart hrs ts te,
      by simp [State.TransientCleared, State.SameOutsideReassembler]⟩
  | inTxn =>
    obtain ⟨startTime, chip, i, ht0, hchip, hi, hexec⟩ := exec_stop_of_inv hs hrs ts te
    refine ⟨_, hexec, by simp, by simp, fun _ => ⟨?_, ?_⟩, by simp⟩
    · exact transientCleared_finishTxn s startTime te chip i
    · exact ⟨startTime, chip, i, ht0, hchip, hi, finishTxn_bank startTime te chip i,
        finishTxn_output_eq_header_fields startTime te chip i⟩

/-- Settles O10: STOP aborts or completes an attempt, and in IDLE the invariant has every transient element
cleared already. -/
theorem oneStopRecoversToIdle : Obligations.OneStopRecoversToIdle := by
  intro ts te s hs
  obtain ⟨t, hexec, hidle, hsaw, htxn, -⟩ := stopEmitsTheDecodedTransaction ts te s hs
  have hcleared : t.TransientCleared := by
    cases hrs : s.rs with
    | idle =>
      obtain rfl := hidle hrs
      obtain ⟨hclear, -⟩ := hs
      exact ⟨hrs, hclear hrs⟩
    | sawStart => exact (hsaw hrs).1
    | inTxn => exact (htxn hrs).1
  exact ⟨t, hexec, hcleared, inv_of_transientCleared hcleared⟩

/-! ### What the events emit -/

/-- An event leaves the output alone, or is the STOP that completes a transaction of a watched chip. -/
theorem exec_event_output_cases {e : Instr} (he : isEvent e = true) (h : exec e s = .next t) :
    (t.output = s.output ∧ ¬(s.rs = .inTxn ∧ ∃ ts te, e = .stop ts te)) ∨
    ((s.rs = .inTxn ∧ ∃ ts te, e = .stop ts te) ∧
      ∃ startTime te chip i, inWindow chip = true ∧ t = s.finishTxn startTime te chip i) := by
  cases e with
  | start ts te => obtain ⟨-, rfl⟩ | ⟨-, rfl⟩ := exec_start_cases h <;> simp
  | address read addr ack ts te =>
    obtain ⟨-, rfl⟩ | ⟨-, -, rfl⟩ | ⟨-, -, rfl⟩ | ⟨-, -, rfl⟩ := exec_address_cases h <;> simp
  | data byte ts te =>
    obtain ⟨-, rfl⟩ | ⟨-, rfl⟩ | ⟨-, -, rfl⟩ | ⟨-, -, rfl⟩ := exec_data_cases h <;> simp
  | stop ts te =>
    obtain ⟨hrs, rfl⟩ | ⟨hrs, rfl⟩ | ⟨hrs, startTime, chip, i, -, -, hi, rfl⟩ := exec_stop_cases h
    · exact .inl ⟨rfl, by simp [hrs]⟩
    · exact .inl ⟨rfl, by simp [hrs]⟩
    · exact .inr ⟨⟨hrs, ts, te, rfl⟩, startTime, te, chip, i, inWindow_of_bankIndex hi, rfl⟩
  | reset | recordHeader | fieldReg | fieldUnrec | fieldBit => simp [isEvent] at he

/-- Settles O37: a completed transaction emits its header at least, and no other event emits. -/
theorem exactlyStopInTransactionEmits : Obligations.ExactlyStopInTransactionEmits := by
  intro e s t he h
  obtain ⟨hkeep, hnot⟩ | ⟨hstop, startTime, te, chip, i, -, rfl⟩ := exec_event_output_cases he h
  · exact iff_of_false (not_not.mpr hkeep) hnot
  · refine iff_of_true ?_ hstop
    rw [finishTxn_output_eq_header_fields]
    simp

/-! ### What a host-driven run emits -/

/-- The output of the second state is that of the first and then words that pass the test. -/
def OutputGrowsBy (test : OutWord → Bool) (s t : State) : Prop :=
  ∃ ws, t.output = s.output ++ ws ∧ ws.all test = true

theorem outputGrowsBy_of_output_eq {test : OutWord → Bool} (h : t.output = s.output) :
    OutputGrowsBy test s t :=
  ⟨[], by simp [h], rfl⟩

theorem OutputGrowsBy.trans {test : OutWord → Bool} (hst : OutputGrowsBy test s t)
    (htu : OutputGrowsBy test t u) : OutputGrowsBy test s u := by
  obtain ⟨ws, hws, htest⟩ := hst
  obtain ⟨vs, hvs, htest'⟩ := htu
  exact ⟨ws ++ vs, by rw [hvs, hws, List.append_assoc], by rw [List.all_append, htest, htest']; rfl⟩

/-- Of a record's words only the header names a chip. -/
theorem all_chipWatched_recordWords (l : Layout) (r : Record) :
    (recordWords l r).all chipWatched = inWindow r.chip := by
  simp [recordWords_eq]

theorem finishTxn_grows_by_chipWatched (startTime te : Time) {chip : ChipAddr} (i : Fin 8)
    (hchip : inWindow chip = true) :
    OutputGrowsBy chipWatched s (s.finishTxn startTime te chip i) :=
  ⟨_, finishTxn_output startTime te chip i, by rw [all_chipWatched_recordWords]; exact hchip⟩

/-- STOP looks up its chip's bank index, which only a chip inside the window has, so no premise on the
state is needed. -/
theorem exec_host_grows_by_chipWatched {i : Instr}
    (hi : isEvent i = true ∨ ∃ ib vb, i = .reset ib vb) (h : exec i s = .next t) :
    OutputGrowsBy chipWatched s t := by
  obtain he | ⟨ib, vb, rfl⟩ := hi
  · obtain ⟨hkeep, -⟩ | ⟨-, startTime, te, chip, j, hchip, rfl⟩ := exec_event_output_cases he h
    · exact outputGrowsBy_of_output_eq hkeep
    · exact finishTxn_grows_by_chipWatched startTime te j hchip
  · obtain rfl : s.construct ib vb = t := by simpa [exec, execReset] using h
    exact outputGrowsBy_of_output_eq rfl

theorem step_host_grows_by_chipWatched (hs : s.HostDriven) (h : step s = .next t) :
    OutputGrowsBy chipWatched s t := by
  obtain ⟨-, ⟨-, rfl⟩ | ⟨w, rest, i, hin, -, hd, he⟩⟩ := step_cases h
  · exact outputGrowsBy_of_output_eq rfl
  · obtain ⟨j, hj, hhost⟩ := decode_of_hostWord (hostWord_of_hostDriven hs hin)
    cases hd.symm.trans hj
    exact exec_host_grows_by_chipWatched (s := { s with input := rest }) hhost he

/-- A step takes the word presented first and leaves the others. -/
theorem step_keeps_hostDriven (hs : s.HostDriven) (h : step s = .next t) : t.HostDriven := by
  obtain ⟨-, ⟨-, rfl⟩ | ⟨w, rest, i, hin, -, -, he⟩⟩ := step_cases h
  · exact hs
  · obtain ⟨hparams, hinput, -⟩ := exec_keeps_model_fields he
    rw [State.HostDriven, hin, List.all_cons, Bool.and_eq_true] at hs
    obtain ⟨-, hrest⟩ := hs
    rw [State.HostDriven, hparams, hinput]
    exact hrest

/-- Settles O46: every step on the host's words adds headers of watched chips only, and what is pending
after it is the host's again. -/
theorem emittedChipsAreInTheWindow : Obligations.EmittedChipsAreInTheWindow := by
  intro k s t hs h
  have hstep (s t : State) (hs : s.HostDriven) (h : step s = .next t) :
      t.HostDriven ∧ OutputGrowsBy chipWatched s t :=
    ⟨step_keeps_hostDriven hs h, step_host_grows_by_chipWatched hs h⟩
  obtain ⟨-, hgrows⟩ := run_relates (fun s => outputGrowsBy_of_output_eq (s := s) rfl)
    (fun _ _ _ => OutputGrowsBy.trans) hstep k s t hs h
  exact hgrows

/-! ### The step on a presented word -/

/-- Settles O11: a word of TIME that decodes is read as the operation it decodes to. -/
theorem stepRunsTheDecodedOperation : Obligations.StepRunsTheDecodedOperation :=
  fun _ _ _ _ hp hin htimes hd => step_of_readWord_ok hp hin (readWord_of_decode htimes hd)

/-- The step on an event's own word runs the event. -/
theorem step_of_encoded_event {e : Instr} {rest : List PortWord} (he : isEvent e = true)
    (hp : paramsAdmissible s.params = true) (hin : s.input = encode e :: rest)
    (htimes : timesFit s.params.timeWidth (encode e) = true) :
    step s = exec e { s with input := rest } :=
  stepRunsTheDecodedOperation s (encode e) rest e hp hin htimes
    (decodeOfEncodeIsTheOperation e (wellFormed_of_isEvent he))

theorem run_add_of_run {j : Nat} (k : Nat) (h : run j s = .next t) : run (j + k) s = run k t := by
  induction j generalizing s with
  | zero =>
    cases h
    rw [Nat.zero_add]
  | succ j ih =>
    obtain ⟨u, hstep, hrun⟩ := run_succ_cases h
    rw [Nat.succ_add, run_succ_of_step hstep, ih hrun]

theorem run_one_of_step (h : step s = .next t) : run 1 s = .next t :=
  run_succ_of_step h

/-! ### The payload kept of an attempt's DATA bytes -/

/-- What the buffer keeps of the bytes of one attempt: the first MAX_PAYLOAD (20_memory.md R52). -/
def keptPayload (maxPayload : Option Nat) (bytes : List Byte) : List Byte :=
  match maxPayload with
  | none => bytes
  | some n => bytes.take n

@[simp] theorem keptPayload_none (bytes : List Byte) : keptPayload none bytes = bytes := rfl

@[simp] theorem keptPayload_some (n : Nat) (bytes : List Byte) :
    keptPayload (some n) bytes = bytes.take n := rfl

@[simp] theorem keptPayload_nil (maxPayload : Option Nat) : keptPayload maxPayload [] = [] := by
  cases maxPayload <;> simp

@[simp] theorem payloadFits_none (len : Nat) : payloadFits none len = true := rfl

@[simp] theorem payloadFits_some (n len : Nat) : payloadFits (some n) len = decide (len ≤ n) := rfl

/-- The buffer filled by some bytes is full exactly when one byte more does not fit. -/
theorem bufFull_keptPayload (maxPayload : Option Nat) (bytes : List Byte) :
    bufFull maxPayload (keptPayload maxPayload bytes) =
      !payloadFits maxPayload (bytes.length + 1) := by
  cases maxPayload with
  | none => rfl
  | some n =>
    rw [keptPayload_some, bufFull_some, payloadFits_some, ← decide_not, decide_eq_decide,
      List.length_take]
    omega

theorem keptPayload_append_of_fits {maxPayload : Option Nat} {bytes : List Byte} (b : Byte)
    (h : payloadFits maxPayload (bytes.length + 1) = true) :
    keptPayload maxPayload (bytes ++ [b]) = keptPayload maxPayload bytes ++ [b] := by
  cases maxPayload with
  | none => rfl
  | some n =>
    have hfits : bytes.length + 1 ≤ n := by simpa using h
    rw [keptPayload_some, keptPayload_some, List.take_of_length_le (by simpa using hfits),
      List.take_of_length_le (by omega)]

theorem keptPayload_append_of_not_fits {maxPayload : Option Nat} {bytes : List Byte} (b : Byte)
    (h : payloadFits maxPayload (bytes.length + 1) = false) :
    keptPayload maxPayload (bytes ++ [b]) = keptPayload maxPayload bytes := by
  cases maxPayload with
  | none => simp at h
  | some n =>
    have hcut : n ≤ bytes.length := by simpa [Nat.lt_succ_iff] using h
    rw [keptPayload_some, keptPayload_some, List.take_append_of_le_length hcut]

theorem payloadFits_of_succ {maxPayload : Option Nat} {len : Nat}
    (h : payloadFits maxPayload (len + 1) = true) : payloadFits maxPayload len = true := by
  cases maxPayload with
  | none => rfl
  | some n =>
    have hfits : len + 1 ≤ n := by simpa using h
    exact decide_eq_true (by omega)

/-! ### The run over one whole attempt -/

section WholeAttempt

variable (s : State) (startTs : Time) (read : Bool) (addr : ChipAddr)

/-- In IN_TXN of an attempt with one address phase, after the given DATA bytes, with the given words
pending. -/
def State.midAttempt (bytes : List Byte) (pending : List PortWord) : State :=
  { s with
    rs := .inTxn
    t0 := some startTs
    chip := some addr
    rd := read
    buf := keptPayload s.params.maxPayload bytes
    trunc := !payloadFits s.params.maxPayload bytes.length
    input := pending }

/-- START and an accepted ADDRESS open the transaction with nothing buffered. -/
theorem run_opening (startTe addrTs addrTe : Time) {rest : List PortWord}
    (hp : paramsAdmissible s.params = true) (hrs : s.rs = .idle) (ha : inWindow addr = true)
    (hin : s.input =
      encode (.start startTs startTe) :: encode (.address read addr true addrTs addrTe) :: rest)
    (hstart : timesFit s.params.timeWidth (encode (.start startTs startTe)) = true)
    (haddr : timesFit s.params.timeWidth (encode (.address read addr true addrTs addrTe)) = true) :
    run 2 s = .next (s.midAttempt startTs read addr [] rest) := by
  have hbegin := (step_of_encoded_event rfl hp hin hstart).trans
    (exec_start_of_ne_sawStart (by simp [hrs]) startTs startTe)
  rw [run_succ_of_step hbegin]
  refine run_one_of_step ((step_of_encoded_event (e := .address read addr true addrTs addrTe)
    rfl ?_ rfl ?_).trans ?_)
  · exact hp
  · exact haddr
  · rw [exec_address_of_phase (.inl rfl),
      addressPhase_of_accept read ((accept_eq_true_iff true addr).mpr ⟨rfl, ha⟩)]
    simp [State.midAttempt, State.openTxn, State.beginAttempt, accumulateDirection]

/-- The step on an event presented in the middle of an attempt runs it there. -/
theorem step_midAttempt {e : Instr} (he : isEvent e = true) (hp : paramsAdmissible s.params = true)
    (htimes : timesFit s.params.timeWidth (encode e) = true) (bytes : List Byte)
    (rest : List PortWord) :
    step (s.midAttempt startTs read addr bytes (encode e :: rest)) =
      exec e (s.midAttempt startTs read addr bytes rest) :=
  step_of_encoded_event (s := s.midAttempt startTs read addr bytes (encode e :: rest)) he hp rfl
    htimes

/-- One more DATA byte: kept while it fits, else dropped with the truncation flag set. -/
theorem appendData_midAttempt (bytes : List Byte) (b : Byte) (pending : List PortWord) :
    (s.midAttempt startTs read addr bytes pending).appendData b =
      s.midAttempt startTs read addr (bytes ++ [b]) pending := by
  have hfull := bufFull_keptPayload s.params.maxPayload bytes
  cases hfits : payloadFits s.params.maxPayload (bytes.length + 1) with
  | true =>
    rw [appendData_of_room (s := s.midAttempt ..) b (hfull.trans (by rw [hfits]; rfl))]
    simp [State.midAttempt, State.bufAppend, keptPayload_append_of_fits b hfits, hfits,
      payloadFits_of_succ hfits]
  | false =>
    rw [appendData_of_full (s := s.midAttempt ..) b (hfull.trans (by rw [hfits]; rfl))]
    simp [State.midAttempt, State.setTrunc, keptPayload_append_of_not_fits b hfits, hfits]

/-- The run over the DATA words of an open transaction, by induction on the bytes from the last. -/
theorem run_dataWords (hp : paramsAdmissible s.params = true) (bytes : List (Byte × Time × Time))
    (rest : List PortWord)
    (htimes : (bytes.map fun b => encode (.data b.1 b.2.1 b.2.2)).all
      (timesFit s.params.timeWidth) = true) :
    run bytes.length (s.midAttempt startTs read addr []
        ((bytes.map fun b => encode (.data b.1 b.2.1 b.2.2)) ++ rest)) =
      .next (s.midAttempt startTs read addr (bytes.map fun b => b.1) rest) := by
  induction bytes using List.reverseRecOn generalizing rest with
  | nil => rfl
  | append_singleton bytes b ih =>
    rw [List.map_append, List.all_append, Bool.and_eq_true] at htimes
    obtain ⟨hbytes, hb⟩ := htimes
    have hb : timesFit s.params.timeWidth (encode (.data b.1 b.2.1 b.2.2)) = true := by simpa using hb
    have hrun := ih (encode (.data b.1 b.2.1 b.2.2) :: rest) hbytes
    rw [List.length_append, List.map_append, List.map_append, List.append_assoc]
    refine (run_add_of_run 1 hrun).trans (run_one_of_step ?_)
    exact (step_midAttempt s startTs read addr rfl hp hb _ rest).trans
      ((exec_data_of_inTxn rfl b.1 b.2.1 b.2.2).trans
        (congrArg Host.Outcome.next (appendData_midAttempt s startTs read addr _ b.1 rest)))

/-- STOP completes the attempt with the bytes kept. -/
theorem step_stop_midAttempt {i : Fin 8} (hp : paramsAdmissible s.params = true)
    (hi : bankIndex addr = some i) (stopTs stopTe : Time)
    (hstop : timesFit s.params.timeWidth (encode (.stop stopTs stopTe)) = true) (bytes : List Byte)
    (rest : List PortWord) :
    step (s.midAttempt startTs read addr bytes (encode (.stop stopTs stopTe) :: rest)) =
      .next ((s.midAttempt startTs read addr bytes rest).finishTxn startTs stopTe addr i) :=
  (step_midAttempt s startTs read addr rfl hp hstop bytes rest).trans
    (exec_stop_of_parts rfl rfl rfl hi stopTs stopTe)

end WholeAttempt

/-- The bound of the statement, said once for both kinds of MAX_PAYLOAD. -/
theorem eq_keptPayload_of_bound {maxPayload : Option Nat} {bytes kept : List Byte} {cut : Bool}
    (hnone : maxPayload = none → kept = bytes ∧ cut = false)
    (hsome : ∀ n, maxPayload = some n → kept = bytes.take n ∧ cut = decide (n < bytes.length)) :
    kept = keptPayload maxPayload bytes ∧ cut = !payloadFits maxPayload bytes.length := by
  cases maxPayload with
  | none => exact hnone rfl
  | some n => simpa [← decide_not] using hsome n rfl

/-- Settles O52: the run opens the transaction, buffers the bytes up to the bound and completes. -/
theorem aWholeAttemptEmitsItsDecodedPayload : Obligations.AWholeAttemptEmitsItsDecodedPayload := by
  intro s startTs startTe read addr addrTs addrTe bytes stopTs stopTe rest i kept cut hp hrs hi hin
    htimes hnone hsome
  obtain ⟨rfl, rfl⟩ := eq_keptPayload_of_bound hnone (by simpa using hsome)
  simp only [attemptWords, List.append_assoc, List.cons_append, List.nil_append] at hin
  simp only [attemptWords, List.all_append, List.all_cons, List.all_nil, Bool.and_true,
    Bool.and_eq_true] at htimes
  obtain ⟨⟨⟨hstart, haddr⟩, hdata⟩, hstop⟩ := htimes
  have hindex : bankIndex addr = some i := (bankIndex_eq_some_iff addr i).mpr hi
  have hopen := run_opening s startTs read addr startTe addrTs addrTe hp hrs
    (inWindow_of_bankIndex hindex) hin hstart haddr
  have hbytes := run_dataWords s startTs read addr hp bytes
    (encode (.stop stopTs stopTe) :: rest) hdata
  have hfinish := step_stop_midAttempt s startTs read addr hp hindex stopTs stopTe hstop
    (bytes.map fun b => b.1) rest
  have hrun := calc
    run (bytes.length + 3) s = run (2 + (bytes.length + 1)) s := by rw [Nat.add_comm 2]
    _ = _ := run_add_of_run _ hopen
    _ = _ := run_add_of_run 1 hbytes
    _ = _ := run_one_of_step hfinish
  exact ⟨_, hrun, transientCleared_finishTxn _ startTs stopTe addr i,
    finishTxn_bank startTs stopTe addr i,
    finishTxn_output_eq_header_fields startTs stopTe addr i, by simp [State.midAttempt]⟩

end Sys2Proof.Machine
end

section
/-! ## Proofs of 41_register_decoder.md

The codes and the default maps, which parameters a step accepts, how a payload decodes byte by byte, what
decoding leaves of the bank table, and the digits of a hexadecimal literal. -/

namespace Sys2Proof.Machine

/-! ### The codes -/

theorem regIdOfCode_eq_none_iff (c : BitVec 5) : RegId.ofCode c = none ↔ 22 ≤ c.toNat := by
  rw [← not_lt, ← exists_regIdCode_iff, Option.eq_none_iff_forall_ne_some]
  simp only [ne_eq, regIdOfCode_eq_some_iff, not_exists]

theorem ioconBitOfCode_eq_none_iff (c : BitVec 3) : IoconBit.ofCode c = none ↔ c.toNat = 7 := by
  have hlt : c.toNat < 2 ^ 3 := c.isLt
  have hnone : IoconBit.ofCode c = none ↔ ¬ c.toNat < 7 := by
    rw [← exists_ioconBitCode_iff, Option.eq_none_iff_forall_ne_some]
    simp only [ne_eq, ioconBitOfCode_eq_some_iff, not_exists]
  exact hnone.trans (by omega)

theorem isConfig_eq_true_iff (id : RegId) : isConfig id = true ↔ id.kind = .iocon :=
  decide_eq_true_iff

/-- Settles O21: the tables of codes, and which codes are taken. -/
theorem identifierCodesAreTheTables : Obligations.IdentifierCodesAreTheTables := by
  have hid (id : RegId) : RegId.ofCode id.code = some id := (regIdOfCode_eq_some_iff _ id).mpr rfl
  have hname (nm : IoconBit) : IoconBit.ofCode nm.code = some nm :=
    (ioconBitOfCode_eq_some_iff _ nm).mpr rfl
  refine ⟨rfl, fun id => ⟨?_, hid id⟩, regIdOfCode_eq_none_iff, rfl, hname,
    ioconBitOfCode_eq_none_iff, isConfig_eq_true_iff⟩
  obtain ⟨kind, port⟩ := id
  cases port <;> simp [toNat_regIdCode, Port.code]

/-! ### The register maps -/

theorem mapLookup_toNat (m : RegMap) (bank : Bool) (off : Byte) :
    mapLookup m bank off.toNat = (mapTable m bank).lookup off := by
  have hle : off.toNat ≤ 0xFF := Nat.le_of_lt_succ off.isLt
  simp [mapLookup, hle]

/-- A map gives an offset only if it lists it. -/
theorem mapLookup_of_not_listed {m : RegMap} {bank : Bool} {off : Nat}
    (h : ∀ e ∈ mapTable m bank, e.1.toNat ≠ off) : mapLookup m bank off = none := by
  by_cases hoff : off ≤ 0xFF
  · rw [mapLookup, if_pos hoff, List.lookup_eq_none_iff]
    intro e he
    have hne := h e he
    rw [bne_iff_ne]
    rintro heq
    rw [← heq, BitVec.toNat_ofNat] at hne
    omega
  · exact mapLookup_of_gt m bank (Nat.lt_of_not_le hoff)

/-- 41_register_decoder.md R143: the 22 identifiers in the order of their codes. -/
theorem mapLookup_default_bank0 (off : Nat) :
    mapLookup defaultRegMap false off =
      if off ≤ 0x15 then RegId.ofCode (BitVec.ofNat 5 off) else none := by
  split
  next hoff =>
    have htable : ∀ off < 0x16, mapLookup defaultRegMap false off =
      RegId.ofCode (BitVec.ofNat 5 off) := by decide
    exact htable off (Nat.lt_succ_of_le hoff)
  next hoff =>
    have hlisted : ∀ e ∈ mapTable defaultRegMap false, e.1.toNat ≤ 0x15 := by decide
    exact mapLookup_of_not_listed fun e he heq => hoff (heq ▸ hlisted e he)

/-- 41_register_decoder.md R144: the eleven kinds from 0x00 for port A, and from 0x10 for port B. -/
theorem mapLookup_default_bank1 (off : Nat) :
    mapLookup defaultRegMap true off =
      if off ≤ 0x0A then (RegKind.ofCode (BitVec.ofNat 4 off)).map fun k => ⟨k, .a⟩
      else if 0x10 ≤ off ∧ off ≤ 0x1A then
        (RegKind.ofCode (BitVec.ofNat 4 (off - 0x10))).map fun k => ⟨k, .b⟩
      else none := by
  split
  next hA =>
    have htable : ∀ off < 0x0B, mapLookup defaultRegMap true off =
      (RegKind.ofCode (BitVec.ofNat 4 off)).map fun k => ⟨k, .a⟩ := by decide
    exact htable off (Nat.lt_succ_of_le hA)
  next hA =>
    split
    next hB =>
      have htable : ∀ k < 0x0B, mapLookup defaultRegMap true (k + 0x10) =
        (RegKind.ofCode (BitVec.ofNat 4 k)).map fun k => ⟨k, .b⟩ := by decide
      obtain ⟨k, rfl⟩ := Nat.exists_eq_add_of_le' hB.1
      rw [Nat.add_sub_cancel]
      exact htable k (by omega)
    next hB =>
      have hlisted : ∀ e ∈ mapTable defaultRegMap true,
        e.1.toNat ≤ 0x0A ∨ 0x10 ≤ e.1.toNat ∧ e.1.toNat ≤ 0x1A := by decide
      exact mapLookup_of_not_listed fun e he heq => (heq ▸ hlisted e he).elim hA hB

/-- Settles O24: each map is one list, and the default lists are those of the datasheet. -/
theorem defaultMapsAreTheDatasheetTables : Obligations.DefaultMapsAreTheDatasheetTables :=
  ⟨fun m off => ⟨mapLookup_toNat m false off, mapLookup_toNat m true off⟩, mapLookup_default_bank0,
    mapLookup_default_bank1⟩

/-- Settles O25: both layouts are written out. -/
theorem layoutsHaveTheTablesPositionsAndOrder : Obligations.LayoutsHaveTheTablesPositionsAndOrder :=
  ⟨rfl, rfl, rfl, rfl, rfl, rfl⟩

/-! ### Which parameters are admissible -/

@[simp] theorem mem_allIoconBits (nm : IoconBit) : nm ∈ allIoconBits := by
  cases nm <;> decide

theorem maxPayloadAdmissible_iff (maxPayload : Option Nat) :
    maxPayloadAdmissible maxPayload = true ↔ ∀ n, maxPayload = some n → 1 ≤ n := by
  cases maxPayload with
  | none => simp [maxPayloadAdmissible]
  | some n => simp [maxPayloadAdmissible, Nat.one_le_iff_ne_zero]

theorem any_isConfig_iff (id : Option RegId) :
    id.any isConfig = true ↔ ∃ port, id = some ⟨.iocon, port⟩ := by
  rw [Option.any_eq_true]
  constructor
  · rintro ⟨⟨kind, port⟩, rfl, hconfig⟩
    obtain rfl : kind = .iocon := (isConfig_eq_true_iff _).mp hconfig
    exact ⟨port, rfl⟩
  · rintro ⟨port, rfl⟩
    exact ⟨_, rfl, rfl⟩

theorem regMapAdmissible_iff (m : RegMap) :
    regMapAdmissible m = true ↔ (∃ port, mapLookup m false 0x0A = some ⟨.iocon, port⟩) ∧
      mapLookup m true 0x09 = some ⟨.gpio, .a⟩ := by
  rw [regMapAdmissible, Bool.and_eq_true, any_isConfig_iff, beq_iff_eq]

theorem emitOrderAdmissible_iff (o : List IoconBit) :
    emitOrderAdmissible o = true ↔ o.length = 7 ∧ ∀ nm, nm ∈ o := by
  simp [emitOrderAdmissible]

/-- The positions 1 to 7 (41_register_decoder.md R148). -/
def namedPositions : List (BitVec 3) := [1, 2, 3, 4, 5, 6, 7]

theorem mem_namedPositions_iff (pos : BitVec 3) : pos ∈ namedPositions ↔ pos ≠ 0 := by
  revert pos
  decide

/-- 41_register_decoder.md R148: seven names cover seven positions exactly when they list them in some
order. -/
theorem layoutAdmissible_iff_perm (l : Layout) :
    layoutAdmissible l = true ↔
      bitPos l .bank = 7 ∧ (allIoconBits.map (bitPos l)).Perm namedPositions := by
  have hcover : layoutAdmissible l = true ↔
      bitPos l .bank = 7 ∧ namedPositions ⊆ allIoconBits.map (bitPos l) := by
    simp only [layoutAdmissible, bitPos, namedPositions, Bool.and_eq_true, beq_iff_eq, List.all_eq_true,
      List.any_eq_true, List.subset_def, List.mem_map]
  rw [hcover]
  refine and_congr_right fun _ => ⟨fun hsub => ?_, fun hperm => hperm.symm.subset⟩
  have hnodup : namedPositions.Nodup := by decide
  exact ((List.subperm_of_subset hnodup hsub).perm_of_length_le (Nat.le_refl 7)).symm

theorem perm_namedPositions_iff (l : Layout) :
    (allIoconBits.map (bitPos l)).Perm namedPositions ↔
      (∀ nm, bitPos l nm ≠ 0) ∧ ∀ nm nm', bitPos l nm = bitPos l nm' → nm = nm' := by
  constructor
  · intro hperm
    have hnodup : (allIoconBits.map (bitPos l)).Nodup := hperm.nodup_iff.mpr (by decide)
    refine ⟨fun nm => ?_, fun nm nm' => ?_⟩
    · exact (mem_namedPositions_iff _).mp (hperm.subset (List.mem_map_of_mem (mem_allIoconBits nm)))
    · exact List.inj_on_of_nodup_map hnodup (mem_allIoconBits nm) (mem_allIoconBits nm')
  · rintro ⟨hpos, hinj⟩
    have hnodup : (allIoconBits.map (bitPos l)).Nodup := List.Nodup.map hinj (by decide)
    have hsub : allIoconBits.map (bitPos l) ⊆ namedPositions := by
      intro pos hmem
      obtain ⟨nm, -, rfl⟩ := List.mem_map.mp hmem
      exact (mem_namedPositions_iff _).mpr (hpos nm)
    exact (List.subperm_of_subset hnodup hsub).perm_of_length_le (Nat.le_refl 7)

theorem layoutAdmissible_iff (l : Layout) :
    layoutAdmissible l = true ↔ bitPos l .bank = 7 ∧ (∀ nm, bitPos l nm ≠ 0) ∧
      ∀ nm nm', bitPos l nm = bitPos l nm' → nm = nm' := by
  rw [layoutAdmissible_iff_perm, perm_namedPositions_iff]

/-- Settles O26: one equivalence for each parameter that is constrained. -/
theorem admissibleParametersMeetTheConstraints :
    Obligations.AdmissibleParametersMeetTheConstraints := by
  intro p
  rw [paramsAdmissible, Bool.and_eq_true, Bool.and_eq_true, Bool.and_eq_true, maxPayloadAdmissible_iff,
    regMapAdmissible_iff, layoutAdmissible_iff, emitOrderAdmissible_iff]
  simp only [and_assoc]

/-! ### The verbose group -/

/-- Seven entries that name all seven bits name each once. -/
theorem perm_allIoconBits_of_admissible {o : List IoconBit} (h : emitOrderAdmissible o = true) :
    o.Perm allIoconBits := by
  obtain ⟨hlength, hmem⟩ := (emitOrderAdmissible_iff o).mp h
  have hnodup : allIoconBits.Nodup := by decide
  exact ((List.subperm_of_subset hnodup fun nm _ => hmem nm).perm_of_length_le hlength.le).symm

/-- Settles O35: an admissible order is a permutation of the seven names, and so are the fields. -/
theorem verboseGroupShowsEachNamedBitOnce : Obligations.VerboseGroupShowsEachNamedBitOnce := by
  intro p v
  refine ⟨rfl, fun hp => ?_⟩
  rw [paramsAdmissible, Bool.and_eq_true] at hp
  exact (perm_allIoconBits_of_admissible hp.2).map _

/-! ### Decoding in two parts -/

theorem decodeValues_append (p : Params) (verbose isRead : Bool) (i : Fin 8) (off : Nat)
    (vs ws : List Byte) (b : BankTable) :
    decodeValues p verbose isRead i off (vs ++ ws) b =
      ((decodeValues p verbose isRead i (off + vs.length) ws
          (decodeValues p verbose isRead i off vs b).1).1,
        (decodeValues p verbose isRead i off vs b).2 ++
          (decodeValues p verbose isRead i (off + vs.length) ws
            (decodeValues p verbose isRead i off vs b).1).2) := by
  induction vs generalizing off b with
  | nil => rfl
  | cons v vs ih =>
    have hoff : off + 1 + vs.length = off + (vs.length + 1) := by omega
    simp only [List.cons_append, decodeValues_cons, ih, hoff, List.length_cons, List.append_assoc]

/-- Settles O30: the split law is by induction on the first part. -/
theorem decodingSplitsAtAnyByte : Obligations.DecodingSplitsAtAnyByte :=
  ⟨decodePayload_nil, decodePayload_cons, decodeValues_append⟩

/-! ### The fields of each value byte -/

/-- The identifier that value byte `k` resolves to, under the bank mode that the bytes before it left
(41_register_decoder.md R152, R153). -/
def resolvedAt (p : Params) (verbose isRead : Bool) (i : Fin 8) (off : Nat) (vs : List Byte)
    (b : BankTable) (k : Nat) : Option RegId :=
  mapLookup p.regMap (bankRead (decodeValues p verbose isRead i off (vs.take k) b).1 i) (off + k)

theorem resolvedAt_zero (p : Params) (verbose isRead : Bool) (i : Fin 8) (off : Nat) (vs : List Byte)
    (b : BankTable) :
    resolvedAt p verbose isRead i off vs b 0 = mapLookup p.regMap (bankRead b i) off := rfl

theorem resolvedAt_succ (p : Params) (verbose isRead : Bool) (i : Fin 8) (off : Nat) (v : Byte)
    (vs : List Byte) (b : BankTable) (k : Nat) :
    resolvedAt p verbose isRead i off (v :: vs) b (k + 1) =
      resolvedAt p verbose isRead i (off + 1) vs
        (valueBank isRead i v b (mapLookup p.regMap (bankRead b i) off)) k := by
  have hoff : off + (k + 1) = off + 1 + k := by omega
  rw [resolvedAt, resolvedAt, List.take_succ_cons, decodeValues_cons, hoff]

/-- 41_register_decoder.md R151: the fields are those of each value byte, in order. -/
theorem decodeValues_fields (p : Params) (verbose isRead : Bool) (i : Fin 8) (off : Nat)
    (vs : List Byte) (b : BankTable) :
    (decodeValues p verbose isRead i off vs b).2 =
      (List.range vs.length).flatMap fun k => vs[k]?.elim [] fun v =>
        valueFields p verbose (off + k) v (resolvedAt p verbose isRead i off vs b k) := by
  induction vs generalizing off b with
  | nil => rfl
  | cons v vs ih =>
    have hoff (k : Nat) : off + 1 + k = off + (k + 1) := by omega
    simp [decodeValues_cons, ih, List.range_succ_eq_map, List.flatMap_map, resolvedAt_zero,
      resolvedAt_succ, hoff]

theorem valueFields_some (p : Params) (verbose : Bool) (off : Nat) (v : Byte) (id : RegId) :
    valueFields p verbose off v (some id) =
      if id.kind = .iocon ∧ verbose = true then verboseFields p v else [.reg id v] := by
  simp [valueFields, isConfig_eq_true_iff]

/-- Settles O27: the fields of each byte are UNREC, the verbose group or REG by what it resolves to. -/
theorem eachByteResolvesUnderTheBankBeforeIt : Obligations.EachByteResolvesUnderTheBankBeforeIt := by
  intro p verbose isRead i o vs b
  rw [decodePayload_cons, decodeValues_fields]
  refine congrArg (List.flatMap · (List.range vs.length)) (funext fun k => ?_)
  cases vs[k]? with
  | none => rfl
  | some v =>
    rw [Option.elim_some, resolvedAt, decodePayload_cons]
    cases mapLookup p.regMap _ (o.toNat + k) with
    | none => rfl
    | some id => exact valueFields_some p verbose _ v id

/-! ### The number of fields -/

theorem length_valueFields (p : Params) (verbose : Bool) (off : Nat) (v : Byte) (id : Option RegId) :
    (valueFields p verbose off v id).length =
      if verbose = true ∧ id.any isConfig = true then p.emitOrder.length else 1 := by
  cases id with
  | none => simp [valueFields]
  | some r => cases hc : isConfig r <;> cases verbose <;> simp [valueFields, hc]

/-- 41_register_decoder.md R159. -/
theorem length_decodeValues (p : Params) (verbose isRead : Bool) (i : Fin 8) (off : Nat)
    (vs : List Byte) (b : BankTable) :
    (decodeValues p verbose isRead i off vs b).2.length =
      ((List.range vs.length).map fun k =>
        if verbose = true ∧ (resolvedAt p verbose isRead i off vs b k).any isConfig = true
        then p.emitOrder.length else 1).sum := by
  rw [decodeValues_fields, List.length_flatMap]
  refine congrArg List.sum (List.map_congr_left fun k hk => ?_)
  rw [List.getElem?_eq_getElem (List.mem_range.mp hk), Option.elim_some, length_valueFields]

theorem length_decodeValues_plain (p : Params) (isRead : Bool) (i : Fin 8) (off : Nat)
    (vs : List Byte) (b : BankTable) :
    (decodeValues p false isRead i off vs b).2.length = vs.length := by
  simp [length_decodeValues]

/-- Settles O29: each byte adds its own number of fields. -/
theorem fieldCountIsTheSumOverValueBytes : Obligations.FieldCountIsTheSumOverValueBytes := by
  intro p verbose isRead i b horder
  refine ⟨rfl, fun o vs => ?_, fun bytes => ?_⟩
  · have hcount := length_decodeValues p verbose isRead i o.toNat vs b
    rwa [horder] at hcount
  · cases bytes with
    | nil => rfl
    | cons o vs => exact length_decodeValues_plain p isRead i o.toNat vs b

/-! ### Offsets past 0xFF -/

/-- 41_register_decoder.md R152, R156: a value byte whose offset no map has is one UNREC field. -/
theorem decodeValues_fields_past {off : Nat} {vs : List Byte} (hoff : 0xFF < off + vs.length)
    (p : Params) (verbose isRead : Bool) (i : Fin 8) (v : Byte) (ws : List Byte) (b : BankTable) :
    (decodeValues p verbose isRead i off (vs ++ v :: ws) b).2 =
      (decodeValues p verbose isRead i off vs b).2 ++ .unrec (off + vs.length) v ::
        (decodeValues p verbose isRead i (off + vs.length + 1) ws
          (decodeValues p verbose isRead i off vs b).1).2 := by
  rw [decodeValues_append, decodeValues_cons, mapLookup_of_gt _ _ hoff]
  rfl

theorem exists_eq_append_cons_of_getElem? {vs : List Byte} {k : Nat} {v : Byte}
    (h : vs[k]? = some v) : ∃ before after, vs = before ++ v :: after ∧ before.length = k := by
  obtain ⟨hlt, rfl⟩ := List.getElem?_eq_some_iff.mp h
  have hsplit : vs.take k ++ vs[k] :: vs.drop (k + 1) = vs := by simp
  exact ⟨_, _, hsplit.symm, List.length_take_of_le hlt.le⟩

/-- Settles O28: such a byte adds one UNREC field, and without verbose each byte before it has added
one. -/
theorem offsetsPastFFAreUnrecognizedUnwrapped :
    Obligations.OffsetsPastFFAreUnrecognizedUnwrapped := by
  refine ⟨fun m bank _ => mapLookup_of_gt m bank, fun p verbose isRead i o vs b k v hk hoff => ?_⟩
  obtain ⟨before, after, rfl, rfl⟩ := exists_eq_append_cons_of_getElem? hk
  have hpast := decodeValues_fields_past hoff p
  have htake : (before ++ v :: after).take (before.length + 1) = before ++ [v] :=
    List.take_length_add_append 1
  have hbefore := length_decodeValues_plain p isRead i o.toNat before b
  constructor
  · rw [htake, List.take_left]
    exact hpast verbose isRead i v [] b
  · rw [decodePayload_cons, hpast false isRead i v after b, List.getElem?_append_right hbefore.le,
      hbefore, Nat.sub_self, List.getElem?_cons_zero]

/-! ### What decoding leaves of the bank table -/

theorem decodeValues_bank_verbose (p : Params) (verbose isRead : Bool) (i : Fin 8) (off : Nat)
    (vs : List Byte) (b : BankTable) :
    (decodeValues p verbose isRead i off vs b).1 = (decodeValues p false isRead i off vs b).1 := by
  induction vs generalizing off b with
  | nil => rfl
  | cons v vs ih => simp only [decodeValues_cons, ih]

/-- Settles O31: only a write changes the bank table, and no byte's write looks at VERBOSE. -/
theorem readsAndVerboseLeaveTheBankTable : Obligations.ReadsAndVerboseLeaveTheBankTable := by
  intro p verbose isRead i bytes b
  constructor
  · by_contra hne
    exact Bool.noConfusion (decodePayload_bank_ne hne).1
  · cases bytes with
    | nil => rfl
    | cons o vs => exact decodeValues_bank_verbose p verbose isRead i o.toNat vs b

theorem valueBank_write_of_config {id : Option RegId} (h : id.any isConfig = true) (i : Fin 8) (v : Byte)
    (b : BankTable) : valueBank false i v b id = bankWrite b i (bankSel v) := by
  obtain ⟨port, rfl⟩ := (any_isConfig_iff id).mp h
  rfl

theorem decodeValues_bank_of_no_config {p : Params} {i : Fin 8} {off : Nat} {vs : List Byte}
    {b : BankTable} (verbose isRead : Bool)
    (h : ∀ k, k < vs.length →
      (mapLookup p.regMap (bankRead b i) (off + k)).any isConfig = false) :
    (decodeValues p verbose isRead i off vs b).1 = b := by
  by_contra hne
  obtain ⟨-, k, hk, hconfig⟩ := decodeValues_bank_ne hne
  rw [h k hk] at hconfig
  exact Bool.noConfusion hconfig

/-- Settles O32: the byte writes its bit 7, and no later byte writes. -/
theorem lastConfigurationWriteDecidesTheBank : Obligations.LastConfigurationWriteDecidesTheBank := by
  intro p verbose i off vs ws v b hconfig hlater
  have hread (b : BankTable) : bankRead (bankWrite b i (bankSel v)) i = v.getLsbD 7 :=
    bankRead_bankWrite_same ..
  rw [decodeValues_append, decodeValues_cons, valueBank_write_of_config hconfig,
    decodeValues_bank_of_no_config verbose false (by rwa [hread]), hread]

theorem bankRead_decodeValues_other {i j : Fin 8} (hne : j ≠ i) (p : Params) (verbose isRead : Bool)
    (off : Nat) (vs : List Byte) (b : BankTable) :
    bankRead (decodeValues p verbose isRead i off vs b).1 j = bankRead b j := by
  induction vs generalizing off b with
  | nil => rfl
  | cons v vs ih =>
    rw [decodeValues_cons, ih]
    obtain hkeep | ⟨-, -, hwrite⟩ :=
      valueBank_cases isRead i v b (mapLookup p.regMap (bankRead b i) off)
    · rw [hkeep]
    · rw [hwrite, bankRead_bankWrite_other b _ hne]

theorem bankRead_decodePayload_other {i j : Fin 8} (hne : j ≠ i) (p : Params) (verbose isRead : Bool)
    (bytes : List Byte) (b : BankTable) :
    bankRead (decodePayload p verbose isRead i bytes b).1 j = bankRead b j := by
  cases bytes with
  | nil => rfl
  | cons o vs => exact bankRead_decodeValues_other hne p verbose isRead o.toNat vs b

/-- Settles O34: the decode of a completed transaction writes at the index of its own chip. -/
theorem otherChipsKeepTheirBank : Obligations.OtherChipsKeepTheirBank := by
  intro ts te s t chip hchip h j hj
  obtain hkeep | ⟨-, -, chip', i, hchip', hi, hbank⟩ := exec_event_bank_cases rfl h
  · rw [hkeep]
  · obtain rfl : chip = chip' := Option.some.inj (hchip.symm.trans hchip')
    have hne : j ≠ i := by
      rintro rfl
      exact hj ((bankIndex_eq_some_iff chip j).mp hi)
    rw [hbank, bankRead_decodePayload_other hne]

/-! ### Bit 0 of an IOCON value -/

/-- 41_register_decoder.md R148: no name has position 0. -/
theorem verboseFields_congr {p : Params} {v w : Byte} (hlayout : layoutAdmissible p.layout = true)
    (h : ∀ k, 1 ≤ k → v.getLsbD k = w.getLsbD k) : verboseFields p v = verboseFields p w := by
  obtain ⟨-, hpos, -⟩ := (layoutAdmissible_iff p.layout).mp hlayout
  have hbit (nm : IoconBit) : namedBit p.layout nm v = namedBit p.layout nm w := by
    refine h _ (Nat.one_le_iff_ne_zero.mpr fun hzero => hpos nm ?_)
    exact BitVec.eq_of_toNat_eq hzero
  simp only [verboseFields, hbit]

theorem valueBank_congr {v w : Byte} (h : bankSel v = bankSel w) (isRead : Bool) (i : Fin 8)
    (b : BankTable) (id : Option RegId) : valueBank isRead i v b id = valueBank isRead i w b id := by
  cases id with
  | none => rfl
  | some r => rw [valueBank, valueBank, h]

theorem valueFields_verbose_of_config {id : Option RegId} (h : id.any isConfig = true) (p : Params)
    (off : Nat) (v : Byte) : valueFields p true off v id = verboseFields p v := by
  obtain ⟨port, rfl⟩ := (any_isConfig_iff id).mp h
  rfl

/-- Settles O36: the verbose group shows the positions 1 to 7 and the bank write shows bit 7; what stands
before and after the byte is decoded alike. -/
theorem ioconBitZeroReachesNeitherVerboseFieldsNorBank :
    Obligations.IoconBitZeroReachesNeitherVerboseFieldsNorBank := by
  intro p v w hlayout hbits
  have hfields := verboseFields_congr hlayout hbits
  have hsel : bankSel v = bankSel w := hbits 7 (by decide)
  refine ⟨hfields, hsel, fun isRead i off vs ws b => ⟨fun verbose => ?_, fun hconfig => ?_⟩⟩
  · simp only [decodeValues_append, decodeValues_cons, valueBank_congr hsel]
  · simp only [decodeValues_append, decodeValues_cons, valueBank_congr hsel,
      valueFields_verbose_of_config hconfig, hfields]

/-! ### The digits of a hexadecimal literal -/

theorem digitValue_digitChar {d : Nat} (hd : d < 16) : digitValue d.digitChar = some d := by
  have htable : ∀ d < 16, digitValue (Nat.digitChar d) = some d := by decide
  exact htable d hd

theorem digitsValue_append (base : Nat) (cs ds : List Char) (acc : Nat) :
    digitsValue base (cs ++ ds) acc = (digitsValue base cs acc).bind (digitsValue base ds) := by
  induction cs generalizing acc with
  | nil => rfl
  | cons c cs ih =>
    simp only [List.cons_append, digitsValue]
    cases digitValue c with
    | none => rfl
    | some d => by_cases hd : d < base <;> simp [hd, ih]

theorem digitsValue_digitChar {d : Nat} (hd : d < 16) (acc : Nat) :
    digitsValue 16 [d.digitChar] acc = some (acc * 16 + d) := by
  simp [digitsValue, digitValue_digitChar hd, hd]

theorem digitsValue_toDigits (n : Nat) : digitsValue 16 (Nat.toDigits 16 n) 0 = some n := by
  induction n using Nat.strongRecOn with
  | ind n ih =>
    by_cases hn : n < 16
    · rw [Nat.toDigits_of_lt_base hn, digitsValue_digitChar hn, Nat.zero_mul, Nat.zero_add]
    · rw [Nat.toDigits_of_base_le (by decide) (Nat.le_of_not_lt hn), digitsValue_append,
        ih (n / 16) (by omega), Option.bind_some, digitsValue_digitChar (Nat.mod_lt n (by decide)),
        Nat.div_add_mod']

/-- The leading zero of a one-digit literal adds nothing. -/
theorem digitsValue_hexDigits (n : Nat) : digitsValue 16 (hexDigits n) 0 = some n := by
  rw [hexDigits]
  split
  · exact digitsValue_toDigits n
  · exact digitsValue_toDigits n

theorem length_hexDigits_of_lt {n : Nat} (hn : n < 0x100) : (hexDigits n).length = 2 := by
  rw [hexDigits]
  split
  next hlt => rw [Nat.toDigits_of_lt_base hlt]; rfl
  next hge =>
    have htwo : (Nat.toDigits 16 n).length ≤ 2 :=
      (Nat.length_toDigits_le_iff (by decide) (by decide)).mpr hn
    have hone : ¬ (Nat.toDigits 16 n).length ≤ 1 :=
      fun h => hge ((Nat.length_toDigits_le_iff (by decide) (by decide)).mp h)
    omega

/-- Settles O41: reading the last digit on top of those before it undoes the division by 16. -/
theorem hexLiteralsReadBack : Obligations.HexLiteralsReadBack :=
  ⟨digitsValue_hexDigits, fun v => length_hexDigits_of_lt v.isLt⟩

end Sys2Proof.Machine
end

section
/-! ## Proofs of 60_exceptions.md

The block takes no exception: no run on the host's words stops, a step with nothing pending holds the
state, and traffic that the filter rejects leaves no trace. -/

namespace Sys2Proof.Machine

variable {s t : State}

/-! ### Runs on the host's words do not stop -/

/-- Settles O12: there is no word to take. -/
theorem stepHoldsTheStateWhenNothingIsPending :
    Obligations.StepHoldsTheStateWhenNothingIsPending := by
  intro s hp hin
  simp [step, hp, takeInput_of_nil hin]

/-- Every event and RESET answers a next state; only STOP needs the invariant for it. -/
theorem exec_answers_of_inv {i : Instr} (hi : isEvent i = true ∨ ∃ ib vb, i = .reset ib vb)
    (hs : s.Inv) : ∃ t, exec i s = .next t := by
  obtain hevent | ⟨ib, vb, rfl⟩ := hi
  · cases i with
    | start ts te => exact (startBeginsAnAttemptOrAborts ts te s).imp fun _ ⟨hexec, _⟩ => hexec
    | address read addr ack ts te =>
      exact (addressOpensAbortsOrIsIgnored read addr ack ts te s).imp fun _ ⟨hexec, _⟩ => hexec
    | data byte ts te =>
      exact (dataAppendsTruncatesAbortsOrIsIgnored byte ts te s).imp fun _ ⟨hexec, _⟩ => hexec
    | stop ts te => exact (oneStopRecoversToIdle ts te s hs).imp fun _ ⟨hexec, _⟩ => hexec
    | reset | recordHeader | fieldReg | fieldUnrec | fieldBit => simp [isEvent] at hevent
  · exact ⟨s.construct ib vb, rfl⟩

theorem timesFit_of_hostDriven {w : PortWord} {rest : List PortWord} (hs : s.HostDriven)
    (hin : s.input = w :: rest) : timesFit s.params.timeWidth w = true := by
  simp only [State.HostDriven, hin, List.all_cons, Bool.and_eq_true] at hs
  obtain ⟨⟨-, htimes⟩, -⟩ := hs
  exact htimes

/-- A step holds the state, or runs the event or RESET that the host's word decodes to. -/
theorem step_answers_of_hostDriven (hs : s.Inv) (hhost : s.HostDriven)
    (hp : paramsAdmissible s.params = true) : ∃ t, step s = .next t := by
  cases hin : s.input with
  | nil => exact ⟨s, stepHoldsTheStateWhenNothingIsPending s hp hin⟩
  | cons w rest =>
    obtain ⟨i, hd, hi⟩ := decode_of_hostWord (hostWord_of_hostDriven hhost hin)
    rw [stepRunsTheDecodedOperation s w rest i hp hin (timesFit_of_hostDriven hhost hin) hd]
    exact exec_answers_of_inv hi (inv_withInput hs rest)

/-- Settles O45: a step on the host's words answers a next state, and that state has every premise
again. -/
theorem hostDrivenRunsNeverStop : Obligations.HostDrivenRunsNeverStop := by
  intro k
  induction k with
  | zero => exact fun s _ _ _ => ⟨s, rfl⟩
  | succ k ih =>
    intro s hs hhost hp
    obtain ⟨t, hstep⟩ := step_answers_of_hostDriven hs hhost hp
    rw [run_succ_of_step hstep]
    exact ih t (step_keeps_inv hs hstep) (step_keeps_hostDriven hhost hstep)
      (by rwa [step_keeps_params hstep])

/-! ### Filtered traffic -/

/-- A filtered word decodes to an event that is no accepted ADDRESS. -/
theorem decode_of_filteredWord {w : PortWord} (h : filteredWord w = true) :
    ∃ e, decode w = .ok e ∧ isEvent e = true ∧
      ∀ read addr ack ts te, e = .address read addr ack ts te → accept ack addr = false := by
  cases w with
  | evw w ts te =>
    refine ⟨_, rfl, isEvent_decodeEvent w ts te, fun read addr ack ts' te' haddress => ?_⟩
    simpa [filteredWord, haddress] using h
  | reset | hw | fw => simp [filteredWord] at h

/-- 40_reassembler.md R104: only an accepted ADDRESS enters IN_TXN. -/
theorem accepted_address_of_enters_inTxn {e : Instr} (he : isEvent e = true)
    (h : exec e s = .next t) (hs : s.rs ≠ .inTxn) (ht : t.rs = .inTxn) :
    ∃ read addr ack ts te, e = .address read addr ack ts te ∧ accept ack addr = true := by
  cases e with
  | start ts te => obtain ⟨-, rfl⟩ | ⟨-, rfl⟩ := exec_start_cases h <;> simp at ht
  | address read addr ack ts te =>
    obtain ⟨-, rfl⟩ | ⟨hrs, -, -⟩ | ⟨-, ha, -⟩ | ⟨-, -, rfl⟩ := exec_address_cases h
    · exact absurd ht hs
    · exact absurd hrs hs
    · exact ⟨read, addr, ack, ts, te, rfl, ha⟩
    · simp at ht
  | data byte ts te =>
    obtain ⟨-, rfl⟩ | ⟨-, rfl⟩ | ⟨hrs, -⟩ | ⟨hrs, -⟩ := exec_data_cases h
    · exact absurd ht hs
    · simp at ht
    · exact absurd hrs hs
    · exact absurd hrs hs
  | stop ts te =>
    obtain ⟨-, rfl⟩ | ⟨-, rfl⟩ | ⟨hrs, -⟩ := exec_stop_cases h
    · exact absurd ht hs
    · simp at ht
    · exact absurd hrs hs
  | reset | recordHeader | fieldReg | fieldUnrec | fieldBit => simp [isEvent] at he

/-- 40_reassembler.md R106: an event outside IN_TXN completes no transaction, so it decodes and emits
nothing. -/
theorem exec_event_bank_output_of_not_inTxn {e : Instr} (he : isEvent e = true)
    (h : exec e s = .next t) (hs : s.rs ≠ .inTxn) : t.bank = s.bank ∧ t.output = s.output := by
  constructor
  · obtain hbank | ⟨-, hrs, -⟩ := exec_event_bank_cases he h
    · exact hbank
    · exact absurd hrs hs
  · obtain ⟨houtput, -⟩ | ⟨⟨hrs, -⟩, -⟩ := exec_event_output_cases he h
    · exact houtput
    · exact absurd hrs hs

/-- No transaction is open, and no pending word opens one. -/
def State.Filtered (s : State) : Prop :=
  s.rs ≠ .inTxn ∧ s.input.all filteredWord = true

theorem step_of_filtered (hs : s.Filtered) (h : step s = .next t) :
    t.Filtered ∧ t.bank = s.bank ∧ t.output = s.output := by
  obtain ⟨hrs, hinput⟩ := hs
  obtain ⟨-, ⟨-, rfl⟩ | ⟨w, rest, i, hin, -, hd, hexec⟩⟩ := step_cases h
  · exact ⟨⟨hrs, hinput⟩, rfl, rfl⟩
  · rw [hin, List.all_cons, Bool.and_eq_true] at hinput
    obtain ⟨hw, hrest⟩ := hinput
    obtain ⟨e, he, hevent, hreject⟩ := decode_of_filteredWord hw
    cases hd.symm.trans he
    have hclosed : t.rs ≠ .inTxn := by
      intro hopen
      obtain ⟨read, addr, ack, ts, te, haddress, haccept⟩ :=
        accepted_address_of_enters_inTxn (s := { s with input := rest }) hevent hexec hrs hopen
      simp [hreject read addr ack ts te haddress] at haccept
    obtain ⟨-, hpending, -⟩ := exec_keeps_model_fields hexec
    exact ⟨⟨hclosed, by rw [hpending]; exact hrest⟩,
      exec_event_bank_output_of_not_inTxn (s := { s with input := rest }) hevent hexec hrs⟩

theorem buf_eq_nil_of_inv (hs : s.Inv) (hrs : s.rs ≠ .inTxn) : s.buf = [] := by
  obtain ⟨hidle, hsaw, -⟩ := hs
  cases h : s.rs with
  | idle =>
    obtain ⟨-, -, -, hbuf, -⟩ := hidle h
    exact hbuf
  | sawStart =>
    obtain ⟨-, -, -, hbuf, -⟩ := hsaw h
    exact hbuf
  | inTxn => exact absurd h hrs

/-- Settles O47: every step on filtered words leaves the bank table and the output and stays outside
IN_TXN, where the invariant has the buffer empty. -/
theorem filteredTrafficLeavesNoTrace : Obligations.FilteredTrafficLeavesNoTrace := by
  intro k s t hs hrs hinput h
  obtain ⟨⟨hclosed, -⟩, hbank, houtput⟩ :=
    run_relates (P := State.Filtered) (R := fun s t => t.bank = s.bank ∧ t.output = s.output)
      (fun _ => ⟨rfl, rfl⟩)
      (fun _ _ _ ⟨hbank, houtput⟩ ⟨hbank', houtput'⟩ =>
        ⟨hbank'.trans hbank, houtput'.trans houtput⟩)
      (fun _ _ => step_of_filtered) k s t ⟨hrs, hinput⟩ h
  have hinv : t.Inv := run_keeps (fun _ _ => step_keeps_inv) k s t hs h
  exact ⟨hclosed, buf_eq_nil_of_inv hinv hclosed, hbank, houtput⟩

end Sys2Proof.Machine
end

section
/-! ## Proofs of 70_reset_and_hazards.md

What RESET writes, and that under the host's ordering duty every record ends no earlier than it starts. -/

namespace Sys2Proof.Machine

variable {s t : State}

/-! ### RESET -/

/-- Settles O1: RESET's next state is that of the update `construct`. -/
theorem resetWritesConfigurationBankAndIdle : Obligations.ResetWritesConfigurationBankAndIdle := by
  intro ib vb s
  exact ⟨s.construct ib vb, rfl, rfl, rfl, bankRead_replicate ib, transientCleared_construct s ib vb,
    rfl, rfl, rfl⟩

/-! ### The start time held -/

/-- The start time held, if there is one, is not after the time given. -/
def State.StartedBy (s : State) (now : Time) : Prop := ∀ t0, s.t0 = some t0 → t0 ≤ now

theorem startedBy_of_t0_none (ht0 : s.t0 = none) (now : Time) : s.StartedBy now := by
  simp [State.StartedBy, ht0]

theorem startedBy_beginAttempt {ts now : Time} (h : ts ≤ now) : (s.beginAttempt ts).StartedBy now := by
  simpa [State.StartedBy] using h

theorem State.StartedBy.mono {now later : Time} (hs : s.StartedBy now) (h : now ≤ later) :
    s.StartedBy later :=
  fun t0 ht0 => (hs t0 ht0).trans h

/-! ### What an event holds and emits under the ordering duty -/

/-- Of a record's words only the header carries times. -/
theorem all_timesOrdered_recordWords (l : Layout) (r : Record) :
    (recordWords l r).all timesOrdered = true ↔ r.startTime ≤ r.endTime := by
  simp [recordWords_eq]

/-- 40_reassembler.md R106: a record's times are the start time held and STOP's end time. -/
theorem finishTxn_grows_by_timesOrdered {startTime te : Time} (chip : ChipAddr) (i : Fin 8)
    (h : startTime ≤ te) : OutputGrowsBy timesOrdered s (s.finishTxn startTime te chip i) :=
  ⟨_, finishTxn_output startTime te chip i, (all_timesOrdered_recordWords _ _).mpr h⟩

/-- An event that starts no earlier than `now` and ends in order holds a start time no later than its own
end, and emits no record but one that ends then. -/
theorem exec_event_in_order {w : EventWord} {now ts te : Time} (hs : s.StartedBy now)
    (hnow : now ≤ ts) (hte : ts ≤ te) (h : exec (decodeEvent w ts te) s = .next t) :
    t.StartedBy te ∧ OutputGrowsBy timesOrdered s t := by
  have hheld : s.StartedBy te := hs.mono (hnow.trans hte)
  have hkeep : s.StartedBy te ∧ OutputGrowsBy timesOrdered s s :=
    ⟨hheld, outputGrowsBy_of_output_eq rfl⟩
  have habort : s.resetToIdle.StartedBy te ∧ OutputGrowsBy timesOrdered s s.resetToIdle :=
    ⟨startedBy_of_t0_none rfl te, outputGrowsBy_of_output_eq rfl⟩
  obtain he | ⟨read, addr, ack, he⟩ | ⟨byte, he⟩ | he := decodeEvent_cases w ts te <;> rw [he] at h
  · obtain ⟨-, rfl⟩ | ⟨-, rfl⟩ := exec_start_cases h
    · exact habort
    · exact ⟨startedBy_beginAttempt hte, outputGrowsBy_of_output_eq rfl⟩
  · obtain ⟨-, rfl⟩ | ⟨-, -, rfl⟩ | ⟨-, -, rfl⟩ | ⟨-, -, rfl⟩ := exec_address_cases h
    · exact hkeep
    · exact hkeep
    · exact hkeep
    · exact habort
  · obtain ⟨-, rfl⟩ | ⟨-, rfl⟩ | ⟨-, -, rfl⟩ | ⟨-, -, rfl⟩ := exec_data_cases h
    · exact hkeep
    · exact habort
    · exact hkeep
    · exact hkeep
  · obtain ⟨-, rfl⟩ | ⟨-, rfl⟩ | ⟨-, startTime, chip, i, ht0, -, -, rfl⟩ := exec_stop_cases h
    · exact hkeep
    · exact habort
    · exact ⟨startedBy_of_t0_none (finishTxn_t0 startTime te chip i) te,
        finishTxn_grows_by_timesOrdered chip i (hheld startTime ht0)⟩

/-! ### Runs under the ordering duty -/

/-- 70_reset_and_hazards.md R235: from some time on, not before the start time held, what is pending keeps
the ordering duty. -/
def State.InOrder (s : State) : Prop :=
  ∃ now, s.StartedBy now ∧ chronological now s.input = true

/-- The word taken is an event, whose end is the time the duty goes on from, or RESET, which drops the start
time held. -/
theorem step_of_inOrder (hhost : s.HostDriven) (hs : s.InOrder) (h : step s = .next t) :
    t.InOrder ∧ OutputGrowsBy timesOrdered s t := by
  obtain ⟨-, ⟨-, rfl⟩ | ⟨w, rest, i, hin, -, hd, hexec⟩⟩ := step_cases h
  · exact ⟨hs, outputGrowsBy_of_output_eq rfl⟩
  · obtain ⟨now, hstart, hduty⟩ := hs
    have hw := hostWord_of_hostDriven hhost hin
    obtain ⟨-, hpending, -⟩ := exec_keeps_model_fields hexec
    rw [hin] at hduty
    cases w with
    | evw w ts te =>
      obtain ⟨hnow, hte, hrest⟩ := (chronological_evw now w ts te rest).mp hduty
      cases hd
      obtain ⟨hheld, hgrows⟩ :=
        exec_event_in_order (s := { s with input := rest }) hstart hnow hte hexec
      exact ⟨⟨te, hheld, by rw [hpending]; exact hrest⟩, hgrows⟩
    | reset ib vb =>
      cases hd
      cases hexec
      exact ⟨⟨now, startedBy_of_t0_none rfl now, hduty⟩, outputGrowsBy_of_output_eq rfl⟩
    | hw | fw => simp [hostWord] at hw

/-- Settles O48: every step on the host's words in order adds records in order only, and what is pending
after it is the host's and in order again. -/
theorem recordTimesAreOrderedUnderTheDuty : Obligations.RecordTimesAreOrderedUnderTheDuty := by
  intro k s t now hhost hstart hduty h
  obtain ⟨-, hgrows⟩ :=
    run_relates (P := fun s => s.HostDriven ∧ s.InOrder) (R := OutputGrowsBy timesOrdered)
      (fun _ => outputGrowsBy_of_output_eq rfl)
      (fun _ _ _ => OutputGrowsBy.trans)
      (fun s t ⟨hhost, hs⟩ h =>
        have ⟨ht, hgrows⟩ := step_of_inOrder hhost hs h
        ⟨⟨step_keeps_hostDriven hhost h, ht⟩, hgrows⟩)
      k s t ⟨hhost, now, hstart, hduty⟩ h
  exact hgrows

end Sys2Proof.Machine
end
